-- ==== Sys2Proof/Config.lean ====
section
/-! DEFINITION. Config: the build parameters the spec leaves open (00_scope.md R6).

Each is a constant with no body, or an argument of the functions that read it, so a claim that mentions it
holds for every build.
`TS_W` is an argument: nothing in the machine reads it, and `Instr.wellFormed` and the claims that need it
take it (notes/assumptions/3.md).
`RESET_STYLE` is an argument of the functions that read the reset pin (Machine/Pins.lean): "It cannot be seen
at the event level" (R6), so `step` does not take it (notes/assumptions/21.md).
-/

namespace Sys2Proof

/-- Which codes are timestamps: the free choice behind the type `TS` (00_scope.md R6). Code 0 is one in any
case, so that the type is not empty. OPEN in the spec (D5); notes/assumptions/3.md. -/
opaque Config.isTimestamp : Nat → Bool

/-- `LATENCY` (00_scope.md R6, 70_reset_and_hazards.md R79): how many counted slots after its event is
accepted a frame is presented on the output port. OPEN in the spec (D11); notes/assumptions/4.md. -/
opaque Config.latency : Nat

/-- Whether a slot with `ev_valid = 0` counts toward `LATENCY`: R79 says "transfers or cycles" and leaves
the choice to the build. `true` is cycles, `false` is transfers; notes/assumptions/5.md. -/
opaque Config.idleSlotsCount : Bool

/-- Whether the reset input acts at once or only where the clock samples it (00_scope.md R6). -/
inductive ResetTiming where
  | synchronous
  | asynchronous
  deriving DecidableEq, Repr

/-- Which level of the reset input asserts it (00_scope.md R6). -/
inductive ResetPolarity where
  | activeHigh
  | activeLow
  deriving DecidableEq, Repr

/-- `RESET_STYLE`, the electrical form of the reset input: "synchronous or asynchronous, polarity"
(00_scope.md R6, 92_eei_decisions.md D4). -/
structure ResetStyle where
  timing   : ResetTiming
  polarity : ResetPolarity
  deriving DecidableEq, Repr

end Sys2Proof
end

