-- ==== Sys2Proof/Word.lean ====
section
/-! DEFINITION. Word: the values that cross the block's ports (00_scope.md R6, 30_encoding.md R37, R38, R40, R41). -/

namespace Sys2Proof

/-- A command byte: "an 8-bit unsigned value" (00_scope.md R6). -/
abbrev Byte := BitVec 8

/-- A timestamp, the type `TS` of 00_scope.md R6: a free type, whose values are the codes that
`Config.isTimestamp` admits. It carries no order and no arithmetic (R37, R62).
DESIGN CHOICE: notes/assumptions/3.md. -/
structure TS where
  code     : Nat
  admitted : code = 0 ∨ Config.isTimestamp code = true
  deriving DecidableEq, Repr

/-- The timestamp of code 0, which every build has (notes/assumptions/3.md). -/
def TS.zero : TS := ⟨0, .inl rfl⟩

/-- The pair of timestamps of a ByteResult and of the frame decoded from it (30_encoding.md R37, R40). -/
structure Span where
  startTime : TS
  endTime   : TS
  deriving DecidableEq, Repr

/-- An input event, abstract form (30_encoding.md R37). -/
inductive InputEvent where
  | enable
  | disable
  | byteResult (byte : Byte) (span : Span)
  deriving DecidableEq, Repr

/-- The input port signals of one transfer (30_encoding.md R38). -/
structure Transfer where
  valid : Bool      -- `ev_valid`
  kind  : BitVec 2  -- `ev_kind`
  byte  : Byte      -- `ev_byte`
  t0    : TS        -- `ev_t0`
  t1    : TS        -- `ev_t1`
  deriving DecidableEq, Repr

/-- What the environment does to the block in one slot: one transfer on the input port (R38), or an
assertion of reset between two events (70_reset_and_hazards.md R75). -/
inductive InputSlot where
  | reset
  | port (t : Transfer)
  deriving DecidableEq, Repr

/-- One reading of the reset input: its level, and whether the clock samples it there
(70_reset_and_hazards.md R74; notes/assumptions/21.md). -/
structure ResetPin where
  level   : Bool
  atClock : Bool
  deriving DecidableEq, Repr

/-- What is driven at the block's inputs: the reset input between two events, or a transfer. -/
inductive PinDrive where
  | resetPin (pin : ResetPin)
  | port (t : Transfer)
  deriving DecidableEq, Repr

/-- The seven frame variants (30_encoding.md R40). -/
inductive FrameKind where
  | readControlRegister
  | readBufferMemory
  | writeControlRegister
  | writeBufferMemory
  | bitFieldSet
  | bitFieldClear
  | systemResetCommand
  deriving DecidableEq, Repr

/-- An output frame, abstract form (30_encoding.md R40). The `iff` of R40 is `OutputFrame.shapeOk`. -/
structure OutputFrame where
  kind : FrameKind
  arg  : Option (BitVec 5)
  span : Span
  deriving DecidableEq, Repr

/-- The output port signals of a presented frame, `fr_valid = 1` (30_encoding.md R41). -/
structure FrameSignals where
  tag    : BitVec 3  -- `fr_tag`
  hasArg : Bool      -- `fr_has_arg`
  arg    : BitVec 5  -- `fr_arg`
  t0     : TS        -- `fr_t0`
  t1     : TS        -- `fr_t1`
  deriving DecidableEq, Repr

end Sys2Proof
end

