-- ==== Sys2Proof/Syntax.lean ====
section
/-! DEFINITION. Syntax: one constructor per row of spec/opcode_table.json.

Eight command rows (format `command_byte`, 41_commands.md R53 to R60) and three event rows (format
`input_event_port`, 40_transaction_events.md R43 to R47). A command constructor carries its byte's
timestamps, which its rule reads as `t0` and `t1`; a command without an argument keeps the ignored bits
`b[4:0]`, which the notation of 30_encoding.md R42 spells `ign=v` (notes/assumptions/8.md).
-/

namespace Sys2Proof

/-- The instructions: command bytes and input events. -/
inductive Instr where
  /-- RCR, ReadControlRegister, `000aaaaa` (R53). -/
  | rcr (arg : BitVec 5) (span : Span)
  /-- RBM, ReadBufferMemory, `001xxxxx` (R54). -/
  | rbm (ign : BitVec 5) (span : Span)
  /-- WCR, WriteControlRegister, `010aaaaa` (R55). -/
  | wcr (arg : BitVec 5) (span : Span)
  /-- WBM, WriteBufferMemory, `011xxxxx` (R56). -/
  | wbm (ign : BitVec 5) (span : Span)
  /-- BFS, BitFieldSet, `100aaaaa` (R57). -/
  | bfs (arg : BitVec 5) (span : Span)
  /-- BFC, BitFieldClear, `101aaaaa` (R58). -/
  | bfc (arg : BitVec 5) (span : Span)
  /-- UNRECOGNIZED_110, `110xxxxx` (R59). -/
  | unrecognized110 (ign : BitVec 5) (span : Span)
  /-- SRC, SystemResetCommand, `111xxxxx` (R60). -/
  | src (ign : BitVec 5) (span : Span)
  /-- EN, Enable, `ev_kind = 00` (R43, R44). -/
  | en
  /-- DIS, Disable, `ev_kind = 01` (R45). -/
  | dis
  /-- BR, ByteResult, `ev_kind = 10` (R46, R47). -/
  | br (byte : Byte) (span : Span)
  deriving DecidableEq, Repr

end Sys2Proof
end

