-- ==== Sys2Proof/WellFormed.lean ====
section
/-! DEFINITION. WellFormed: what a build of timestamp width `TS_W` can carry.

Every other operand is exact by its type (`arg : u5`, `byte : u8`). The one check left is that a timestamp
fits the `TS_W` bits of `ev_t0` and `ev_t1` (30_encoding.md R38); `TS_W` is an argument, as 00_scope.md R6
asks. The machine itself never checks it: timestamps are opaque (41_commands.md R62).
-/

namespace Sys2Proof

/-- The code is a value of `TS_W` bits. -/
def codeFits (tsW code : Nat) : Bool := decide (code < 2 ^ tsW)

/-- The timestamp is a value of `TS_W` bits. -/
def TS.fits (tsW : Nat) (t : TS) : Bool := codeFits tsW t.code

/-- Both timestamps are values of `TS_W` bits. -/
def Span.fits (tsW : Nat) (p : Span) : Bool := p.startTime.fits tsW && p.endTime.fits tsW

/-- The instruction's timestamps, where it has any (R37: Enable and Disable carry none). -/
def Instr.span? : Instr → Option Span
  | .rcr _ p => some p
  | .rbm _ p => some p
  | .wcr _ p => some p
  | .wbm _ p => some p
  | .bfs _ p => some p
  | .bfc _ p => some p
  | .unrecognized110 _ p => some p
  | .src _ p => some p
  | .en => none
  | .dis => none
  | .br _ p => some p

/-- The instruction can be presented by a build whose timestamps are `tsW` bits wide. -/
def Instr.wellFormed (tsW : Nat) (i : Instr) : Bool := i.span?.all (Span.fits tsW)

end Sys2Proof
end

