-- ==== Sys2Proof/Decode.lean ====
section
/-! DEFINITION. Decode: the command byte (30_encoding.md R29 to R36), the input event (R38, R39), the
encoder beside them, and the numbering of words that the host's table uses.

Two levels, as the spec has them: a transfer decodes to an event, and the byte of a ByteResult decodes to a
command. Both are total; the one thing rejected, by name, is `ev_kind = 11`.
-/

namespace Sys2Proof

/-! ## The command byte -/

/-- Opcode extraction, `b[7:5]` (R30). -/
def opcode (b : Byte) : BitVec 3 := b.extractLsb' 5 3

/-- Argument extraction, `b[4:0]` (R31). -/
def arg (b : Byte) : BitVec 5 := b.extractLsb' 0 5

/-- The command a byte stands for, by its opcode (R33); total on all 256 bytes (R32). -/
def decodeCommand (b : Byte) (p : Span) : Instr :=
  match (opcode b).toFin with
  | 0 => .rcr (arg b) p
  | 1 => .rbm (arg b) p
  | 2 => .wcr (arg b) p
  | 3 => .wbm (arg b) p
  | 4 => .bfs (arg b) p
  | 5 => .bfc (arg b) p
  | 6 => .unrecognized110 (arg b) p
  | 7 => .src (arg b) p

/-! ## The input event -/

/-- Why a presented transfer is no instruction. -/
inductive DecodeReject where
  /-- `ev_kind = 11` (R39). -/
  | reservedEventKind
  deriving DecidableEq, Repr

/-- The timestamps a transfer carries. -/
def Transfer.span (t : Transfer) : Span := ⟨t.t0, t.t1⟩

/-- The event a presented transfer stands for (R38). `ev_byte`, `ev_t0` and `ev_t1` are read only under
`ev_kind = 10`; `11` is rejected by name (R39). -/
def decodeEvent (t : Transfer) : Except DecodeReject Instr :=
  match t.kind.toFin with
  | 0 => .ok .en
  | 1 => .ok .dis
  | 2 => .ok (.br t.byte t.span)
  | 3 => .error .reservedEventKind

/-- The two formats of spec/opcode_table.json. -/
inductive Format where
  | commandByte
  | inputEventPort
  deriving DecidableEq, Repr

/-- The format of an instruction's row. -/
def Instr.format : Instr → Format
  | .rcr _ _ => .commandByte
  | .rbm _ _ => .commandByte
  | .wcr _ _ => .commandByte
  | .wbm _ _ => .commandByte
  | .bfs _ _ => .commandByte
  | .bfc _ _ => .commandByte
  | .unrecognized110 _ _ => .commandByte
  | .src _ _ => .commandByte
  | .en => .inputEventPort
  | .dis => .inputEventPort
  | .br _ _ => .inputEventPort

/-- Decoding a transfer at the level of one format: as an event, or as the command byte that a ByteResult
delivers. `none` where there is no instruction at that level: `ev_kind = 11` is no event, and a transfer that
is no ByteResult delivers no command byte. -/
def decodeAs (f : Format) (t : Transfer) : Option Instr :=
  match f with
  | .inputEventPort => (decodeEvent t).toOption
  | .commandByte => if t.kind = 0b10#2 then some (decodeCommand t.byte t.span) else none

/-! ## The encoder -/

/-- The command byte `opcode ++ arg` (R29, R42). -/
def commandByte (op : BitVec 3) (a : BitVec 5) : Byte := op ++ a

/-- A ByteResult transfer that delivers `b` (R38). -/
def byteTransfer (b : Byte) (p : Span) : Transfer :=
  { valid := true, kind := 0b10#2, byte := b, t0 := p.startTime, t1 := p.endTime }

/-- An Enable or Disable transfer. The signals that are read only under `ev_kind = 10` are driven to zero
(DESIGN CHOICE, safe: nothing reads them; notes/assumptions/14.md). -/
def boundaryTransfer (kind : BitVec 2) : Transfer :=
  { valid := true, kind := kind, byte := 0#8, t0 := .zero, t1 := .zero }

/-- The transfer that presents an instruction on the input port (R38); a command is presented by the
ByteResult that delivers its byte (R33, R42). -/
def encode : Instr → Transfer
  | .rcr a p => byteTransfer (commandByte 0b000#3 a) p
  | .rbm x p => byteTransfer (commandByte 0b001#3 x) p
  | .wcr a p => byteTransfer (commandByte 0b010#3 a) p
  | .wbm x p => byteTransfer (commandByte 0b011#3 x) p
  | .bfs a p => byteTransfer (commandByte 0b100#3 a) p
  | .bfc a p => byteTransfer (commandByte 0b101#3 a) p
  | .unrecognized110 x p => byteTransfer (commandByte 0b110#3 x) p
  | .src x p => byteTransfer (commandByte 0b111#3 x) p
  | .en => boundaryTransfer 0b00#2
  | .dis => boundaryTransfer 0b01#2
  | .br b p => byteTransfer b p

/-! ## The table's numbering of words -/

/-- The transfer that stands for a word of spec/opcode_table.json: the table gives an event row the two bits
of `ev_kind` and a command row the eight bits of the byte. So fewer than eight bits number the event port
(its other signals, above the row's bits, are zero), and eight or more number a byte delivered by a
ByteResult (notes/assumptions/10.md). -/
def tableTransfer (nbits w : Nat) : Transfer :=
  if nbits < 8 then boundaryTransfer (BitVec.ofNat 2 w)
  else byteTransfer (BitVec.ofNat 8 w) ⟨.zero, .zero⟩

/-- The format a word of `nbits` bits is read at. -/
def tableFormat (nbits : Nat) : Format := if nbits < 8 then .inputEventPort else .commandByte

/-- The instruction the decoder reads from a word of spec/opcode_table.json; none for `ev_kind = 11` and for
a word that is wider than any row. -/
def decodeTableWord (nbits w : Nat) : Option Instr :=
  if w < 2 ^ nbits ∧ w < 256 then decodeAs (tableFormat nbits) (tableTransfer nbits w) else none

end Sys2Proof
end

