-- ==== Sys2Proof/Machine/State.lean ====
section
/-! DEFINITION. Machine/State: the state of the block, what surrounds it at its ports, reset, and the
reasons a step can stop.

The block's own state is the one register `st` (10_state.md R11). The other fields are what the spec places
at its boundary: the output frame stream (R19, 40_transaction_events.md R49), the frames on their way to the
output port and the frame on it (70_reset_and_hazards.md R75, R79; 30_encoding.md R41), and the environment's
input (R81). The block has no memory, no registers, no pc, no flags (R14 to R16, 20_memory.md R21).
-/

namespace Sys2Proof.Machine

/-- The decoder state register's two values (10_state.md R12). -/
inductive DecoderState where
  | disabled
  | awaitingOpcode
  deriving DecidableEq, Repr

/-- A frame that has been emitted and is not yet presented (70_reset_and_hazards.md R79): `remaining` more
counted slots pass before the slot that presents it. -/
structure PendingFrame where
  remaining : Nat
  frame     : OutputFrame
  deriving DecidableEq, Repr

structure State where
  /-- The decoder state register, the block's one register (10_state.md R11, R12). -/
  st        : DecoderState
  /-- The output frame stream so far, oldest first (40_transaction_events.md R49). -/
  emitted   : List OutputFrame
  /-- Emitted frames not yet presented, oldest first (70_reset_and_hazards.md R75, R79). -/
  pending   : List PendingFrame
  /-- The frame on the output port in the last slot; `none` is `fr_valid = 0` (30_encoding.md R41). -/
  frOut     : Option OutputFrame
  /-- The frames the output port has presented so far, oldest first (70_reset_and_hazards.md R79). -/
  presented : List OutputFrame
  /-- What the environment does next, one slot a step (70_reset_and_hazards.md R81; notes/assumptions/1.md). -/
  input     : List InputSlot
  deriving DecidableEq, Repr

/-- The block has no fault: "No fault of the block exists" (60_exceptions.md R64, R68). -/
inductive Fault where
  deriving DecidableEq, Repr

/-- Why the model gives a step no meaning (60_exceptions.md R68). -/
inductive Refusal where
  /-- An instruction with no meaning yet; raised by `exec`'s rejected arms only, of which this model has
  none. Safe. -/
  | notModelled (mnemonic : String)
  /-- `ev_valid = 1` with `ev_kind = 11` (30_encoding.md R39, D8); raised by `step` when it fetches such a
  transfer. Safe: nothing is claimed of such a run. -/
  | reservedEventKind
  /-- A wider state register holds an encoding that 10_state.md R12 does not name (R13, D2); raised by
  `DecoderState.ofCode`, never by `step`, whose `st` has two values. Safe. -/
  | unreachableState
  deriving DecidableEq, Repr

/-- The machine right after reset: `st = Disabled`, an empty output stream (10_state.md R19), `fr_valid = 0`
(70_reset_and_hazards.md R74), nothing on its way to the port and nothing driven on the input yet. -/
def State.reset : State :=
  { st := .disabled, emitted := [], pending := [], frOut := none, presented := [], input := [] }

end Sys2Proof.Machine
end

