-- ==== Sys2Proof/Machine/Flags.lean ====
section
/-! DEFINITION. Machine/Flags: the block has no status flag, no condition code and no predicate
(10_state.md R16). Its one flag-like signal is `fr_has_arg` of an output frame, "a field of the output, not
stored state" (R16; 30_encoding.md R41). -/

namespace Sys2Proof

/-- `fr_has_arg`: the variant carries an argument (30_encoding.md R33, R41). -/
def FrameKind.hasArg : FrameKind → Bool
  | .readControlRegister => true
  | .readBufferMemory => false
  | .writeControlRegister => true
  | .writeBufferMemory => false
  | .bitFieldSet => true
  | .bitFieldClear => true
  | .systemResetCommand => false

/-- The constraint of 30_encoding.md R40: `arg` is present iff the kind is RCR, WCR, BFS or BFC. -/
def OutputFrame.shapeOk (f : OutputFrame) : Bool := f.arg.isSome == f.kind.hasArg

end Sys2Proof
end

