-- ==== Sys2Proof/Machine/Operands.lean ====
section
/-! DEFINITION. Machine/Operands: the frame mapper (41_commands.md R52), the frame built from a command's
operands, the output port's encoding of a frame (30_encoding.md R41), and the decoder state's bit code
(10_state.md R12). -/

namespace Sys2Proof

/-- The frame mapper: the opcode value to the frame variant and its argument (41_commands.md R52). -/
def mapFrame (op : BitVec 3) (a : BitVec 5) : Option (FrameKind × Option (BitVec 5)) :=
  match op.toFin with
  | 0 => some (.readControlRegister, some a)
  | 1 => some (.readBufferMemory, none)
  | 2 => some (.writeControlRegister, some a)
  | 3 => some (.writeBufferMemory, none)
  | 4 => some (.bitFieldSet, some a)
  | 5 => some (.bitFieldClear, some a)
  | 6 => none
  | 7 => some (.systemResetCommand, none)

/-- The frame a byte gives, with the byte's own timestamps (40_transaction_events.md R47, 41_commands.md R62). -/
def byteFrame (b : Byte) (p : Span) : Option OutputFrame :=
  (mapFrame (opcode b) (arg b)).map fun (k, oa) => { kind := k, arg := oa, span := p }

/-- `fr_tag`: the frame kind, encoded as the opcode that produces it (30_encoding.md R41, D9). -/
def FrameKind.tag : FrameKind → BitVec 3
  | .readControlRegister => 0b000#3
  | .readBufferMemory => 0b001#3
  | .writeControlRegister => 0b010#3
  | .writeBufferMemory => 0b011#3
  | .bitFieldSet => 0b100#3
  | .bitFieldClear => 0b101#3
  | .systemResetCommand => 0b111#3

/-- The output port signals of a presented frame (30_encoding.md R41); `fr_arg = 00000` when
`fr_has_arg = 0` (D10). -/
def OutputFrame.signals (f : OutputFrame) : FrameSignals :=
  { tag := f.kind.tag
    hasArg := f.kind.hasArg
    arg := if f.kind.hasArg then f.arg.getD 0#5 else 0#5
    t0 := f.span.startTime
    t1 := f.span.endTime }

/-- The frame kind a consumer reads from `fr_tag`; `110` is never presented (30_encoding.md R41). -/
def FrameKind.ofTag (t : BitVec 3) : Option FrameKind :=
  match t.toFin with
  | 0 => some .readControlRegister
  | 1 => some .readBufferMemory
  | 2 => some .writeControlRegister
  | 3 => some .writeBufferMemory
  | 4 => some .bitFieldSet
  | 5 => some .bitFieldClear
  | 6 => none
  | 7 => some .systemResetCommand

/-- The frame a consumer that obeys `fr_has_arg` reads from the output port (30_encoding.md R41, D10). -/
def FrameSignals.frame? (x : FrameSignals) : Option OutputFrame :=
  (FrameKind.ofTag x.tag).map fun k =>
    { kind := k, arg := if x.hasArg then some x.arg else none, span := ⟨x.t0, x.t1⟩ }

namespace Machine

/-- `fr_valid` (30_encoding.md R41): a frame is on the output port. -/
def State.frValid (s : State) : Bool := s.frOut.isSome

/-- The output port's other signals; they have a value only while `fr_valid = 1` (notes/assumptions/7.md). -/
def State.frameSignals (s : State) : Option FrameSignals := s.frOut.map OutputFrame.signals

/-- The one-bit code of `st` at the port level (10_state.md R12, D1). -/
def DecoderState.code : DecoderState → BitVec 1
  | .disabled => 0#1
  | .awaitingOpcode => 1#1

/-- Reading a state register of any width `w`: the two encodings of 10_state.md R12, and every other one
refused (R13; 60_exceptions.md R68). Only a build with a wider register can hold another
(notes/assumptions/13.md). -/
def DecoderState.ofCode {w : Nat} (v : BitVec w) : Host.Outcome DecoderState Fault Refusal :=
  match v.toNat with
  | 0 => .next .disabled
  | 1 => .next .awaitingOpcode
  | _ => .refused .unreachableState

end Machine

end Sys2Proof
end

