-- ==== Sys2Proof/Machine/Ops.lean ====
section
/-! DEFINITION. Machine/Ops: the named operations over the state.

The block takes no exception and returns from none (60_exceptions.md R64, R67), so no such operation stands
here; its one asynchronous input is reset (70_reset_and_hazards.md R75).
-/

namespace Sys2Proof.Machine

/-! ## Operations of an event (00_scope.md R9) -/

/-- `st <- v` (00_scope.md R9). -/
def State.setSt (s : State) (v : DecoderState) : State := { s with st := v }

/-- `emit(f)`: appends `f` to the output frame stream (00_scope.md R9), and sends it on its way to the output
port, which presents it `LATENCY` counted slots later (70_reset_and_hazards.md R79). -/
def State.emit (s : State) (f : OutputFrame) : State :=
  { s with
    emitted := s.emitted ++ [f]
    pending := s.pending ++ [{ remaining := Config.latency, frame := f }] }

/-- `emit` of an optional frame; `none` emits nothing (00_scope.md R9). -/
def State.emitOption (s : State) : Option OutputFrame → State
  | none => s
  | some f => s.emit f

/-- A command byte's effect by the decoder state: in `Disabled` the byte is ignored
(40_transaction_events.md R46), in `AwaitingOpcode` it emits what its opcode's rule says and `st` does not
change (R47). -/
def commandEffect (frame : Option OutputFrame) (s : State) : Host.Outcome State Fault Refusal :=
  match s.st with
  | .disabled => .next s
  | .awaitingOpcode => .next (s.emitOption frame)

/-! ## The output port (70_reset_and_hazards.md R79) -/

/-- The frame that a counted slot presents: the oldest pending one, when its count has run out. -/
def dueFrame : List PendingFrame → Option OutputFrame
  | ⟨0, f⟩ :: _ => some f
  | _ => none

/-- A pending frame one counted slot later. -/
def PendingFrame.countDown (p : PendingFrame) : PendingFrame := { p with remaining := p.remaining - 1 }

/-- The pending frames after a counted slot: a due frame has left, and every other is one slot nearer, in the
same order. -/
def restPending : List PendingFrame → List PendingFrame
  | ⟨0, _⟩ :: ps => ps.map PendingFrame.countDown
  | ps => ps.map PendingFrame.countDown

/-- The output port's part of one slot. A slot that does not count toward `LATENCY` presents nothing. -/
def State.drivePort (s : State) (counts : Bool) : State :=
  { s with
    frOut := if counts then dueFrame s.pending else none
    presented := s.presented ++ (if counts then dueFrame s.pending else none).toList
    pending := if counts then restPending s.pending else s.pending }

/-! ## The input port -/

/-- What a step finds at the input. With nothing left to drive, the port is idle: `ev_valid = 0`
(notes/assumptions/2.md). -/
inductive Fetched where
  | reset
  | idle
  | event (t : Transfer)
  deriving DecidableEq, Repr

/-- A slot as the block sees it: reset, no event (`ev_valid = 0`), or a presented event (30_encoding.md R38). -/
def fetchedOf : InputSlot → Fetched
  | .reset => .reset
  | .port t => if t.valid then .event t else .idle

/-- The next slot of the input (70_reset_and_hazards.md R80, R81). -/
def State.fetch (s : State) : Fetched :=
  match s.input with
  | [] => .idle
  | x :: _ => fetchedOf x

/-- The input after one slot: the upstream framer's position moves on by one (10_state.md R15). -/
def State.consume (s : State) : State := { s with input := s.input.tail }

/-! ## Reset -/

/-- Reset asserted between two events (70_reset_and_hazards.md R74, R75): `st <- Disabled`, frames not yet
presented are discarded, `fr_valid = 0`, frames already emitted stay emitted. -/
def State.assertReset (s : State) : State :=
  { s with st := .disabled, pending := [], frOut := none }

/-! ## Refusal -/

/-- The refusal of a presented transfer that is no event (60_exceptions.md R68). -/
def refusalOf : DecodeReject → Refusal
  | .reservedEventKind => .reservedEventKind

end Sys2Proof.Machine
end

