-- ==== Sys2Proof/Machine/Commands.lean ====
section
/-! DEFINITION. Machine/Commands: the eight command bytes, one rule each (41_commands.md R53 to R60).

Each emits the frame its own rule names, with the timestamps of its byte (R62), and changes nothing else
(R61). The gate by `st` is `commandEffect` (40_transaction_events.md R46, R47).
-/

namespace Sys2Proof.Machine

/-- RCR, opcode `000` (R53). -/
def execRcr (a : BitVec 5) (p : Span) (s : State) : Host.Outcome State Fault Refusal :=
  commandEffect (some { kind := .readControlRegister, arg := some a, span := p }) s

/-- RBM, opcode `001`; `b[4:0]` is ignored (R54). -/
def execRbm (_ign : BitVec 5) (p : Span) (s : State) : Host.Outcome State Fault Refusal :=
  commandEffect (some { kind := .readBufferMemory, arg := none, span := p }) s

/-- WCR, opcode `010` (R55). -/
def execWcr (a : BitVec 5) (p : Span) (s : State) : Host.Outcome State Fault Refusal :=
  commandEffect (some { kind := .writeControlRegister, arg := some a, span := p }) s

/-- WBM, opcode `011`; `b[4:0]` is ignored (R56). -/
def execWbm (_ign : BitVec 5) (p : Span) (s : State) : Host.Outcome State Fault Refusal :=
  commandEffect (some { kind := .writeBufferMemory, arg := none, span := p }) s

/-- BFS, opcode `100` (R57). -/
def execBfs (a : BitVec 5) (p : Span) (s : State) : Host.Outcome State Fault Refusal :=
  commandEffect (some { kind := .bitFieldSet, arg := some a, span := p }) s

/-- BFC, opcode `101` (R58). -/
def execBfc (a : BitVec 5) (p : Span) (s : State) : Host.Outcome State Fault Refusal :=
  commandEffect (some { kind := .bitFieldClear, arg := some a, span := p }) s

/-- Opcode `110`: unrecognised, nothing is emitted and nothing is refused (R59). -/
def execUnrecognized110 (_ign : BitVec 5) (_p : Span) (s : State) : Host.Outcome State Fault Refusal :=
  commandEffect none s

/-- SRC, opcode `111`: a label, not a reset of this block; `b[4:0]` is ignored (R60). -/
def execSrc (_ign : BitVec 5) (p : Span) (s : State) : Host.Outcome State Fault Refusal :=
  commandEffect (some { kind := .systemResetCommand, arg := none, span := p }) s

end Sys2Proof.Machine
end

