-- ==== Sys2Proof/Machine/Events.lean ====
section
/-! DEFINITION. Machine/Events: the three input events (40_transaction_events.md R43 to R47). -/

namespace Sys2Proof.Machine

/-- EN, Enable: `Disabled` goes to `AwaitingOpcode` (R43); `AwaitingOpcode` stays (R44, the spec's decision
D3). Nothing is emitted. -/
def execEn (s : State) : Host.Outcome State Fault Refusal :=
  match s.st with
  | .disabled => .next (s.setSt .awaitingOpcode)
  | .awaitingOpcode => .next s

/-- DIS, Disable: `st <- Disabled` from any state, nothing is emitted (R45). -/
def execDis (s : State) : Host.Outcome State Fault Refusal := .next (s.setSt .disabled)

/-- BR, ByteResult: skipped in `Disabled` (R46); in `AwaitingOpcode` the byte goes through the extractor and
the frame mapper, and its frame, if any, is emitted (R47). -/
def execBr (b : Byte) (p : Span) (s : State) : Host.Outcome State Fault Refusal :=
  match s.st with
  | .disabled => .next s
  | .awaitingOpcode => .next (s.emitOption (byteFrame b p))

end Sys2Proof.Machine
end

