-- ==== Sys2Proof/Machine/Dispatch.lean ====
section
/-! DEFINITION. Machine/Dispatch: one arm per constructor of Instr. -/

namespace Sys2Proof.Machine

def exec (i : Instr) (s : State) : Host.Outcome State Fault Refusal :=
  match i with
  -- command bytes (41_commands.md)
  | .rcr a p => Sys2Proof.Machine.execRcr a p s
  | .rbm x p => Sys2Proof.Machine.execRbm x p s
  | .wcr a p => Sys2Proof.Machine.execWcr a p s
  | .wbm x p => Sys2Proof.Machine.execWbm x p s
  | .bfs a p => Sys2Proof.Machine.execBfs a p s
  | .bfc a p => Sys2Proof.Machine.execBfc a p s
  | .unrecognized110 x p => Sys2Proof.Machine.execUnrecognized110 x p s
  | .src x p => Sys2Proof.Machine.execSrc x p s
  -- input events (40_transaction_events.md)
  | .en => Sys2Proof.Machine.execEn s
  | .dis => Sys2Proof.Machine.execDis s
  | .br b p => Sys2Proof.Machine.execBr b p s

end Sys2Proof.Machine
end

