-- ==== Sys2Proof/Machine/Step.lean ====
section
/-! DEFINITION. Machine/Step: one slot of the environment's input (00_scope.md R10, 30_encoding.md R38).

A reset slot resets; an idle slot does nothing but let the output port go on; a presented event is decoded
and run to completion (20_memory.md R25), then the output port presents what is due
(70_reset_and_hazards.md R79).
-/

namespace Sys2Proof.Machine

/-- One step of the machine. -/
def step (s : State) : Host.Outcome State Fault Refusal :=
  match s.fetch with
  | .reset => .next s.consume.assertReset
  | .idle => .next (s.consume.drivePort Config.idleSlotsCount)
  | .event t =>
    match decodeEvent t with
    | .error r => .refused (refusalOf r)
    | .ok i =>
      match exec i s.consume with
      | .next s' => .next (s'.drivePort true)
      | .fault r => .fault r
      | .refused r => .refused r

/-- `s` with the instruction of a table word put in front of the input, so that the next step fetches it
(notes/assumptions/1.md, 10.md). -/
def State.withFetchWord (s : State) (nbits w : Nat) : State :=
  { s with input := .port (tableTransfer nbits w) :: s.input }

end Sys2Proof.Machine
end

