-- ==== Sys2Proof/Machine/Assembler.lean ====
section
/-! DEFINITION. Machine/Assembler: the notation of 30_encoding.md R42 (the spec's decision D15) for command
bytes, as data, and what each spelling assembles to. It carries no semantics: no step uses it
(notes/assumptions/20.md). -/

namespace Sys2Proof

/-- A spelled command byte (R42). `RBM`, `WBM` and `SRC` alone have `ign = 0`. -/
inductive Spelling where
  | rcr (a : Nat)
  | wcr (a : Nat)
  | bfs (a : Nat)
  | bfc (a : Nat)
  | rbm (ign : Nat := 0)
  | wbm (ign : Nat := 0)
  | src (ign : Nat := 0)
  /-- `.byte v` spells any byte; it is the only spelling for opcode `110`. -/
  | byte (v : Nat)
  deriving DecidableEq, Repr

/-- `opcode ++ a[4:0]`, for `a` in 0..31 (R42). -/
def assembleField (op : BitVec 3) (a : Nat) : Option Byte :=
  if a < 32 then some (commandByte op (BitVec.ofNat 5 a)) else none

/-- The byte a spelling assembles to; none where an operand is out of its range (R42). -/
def assemble : Spelling → Option Byte
  | .rcr a => assembleField 0b000#3 a
  | .wcr a => assembleField 0b010#3 a
  | .bfs a => assembleField 0b100#3 a
  | .bfc a => assembleField 0b101#3 a
  | .rbm v => assembleField 0b001#3 v
  | .wbm v => assembleField 0b011#3 v
  | .src v => assembleField 0b111#3 v
  | .byte v => if v < 256 then some (BitVec.ofNat 8 v) else none

end Sys2Proof
end

