-- ==== Sys2Proof/Machine/Downstream.lean ====
section
/-! DEFINITION. Machine/Downstream: the argument rendering contract of the downstream layer (41_commands.md
R63). "This is outside the block and is given for test vectors only": no step uses it
(notes/assumptions/19.md). -/

namespace Sys2Proof

/-- The lowercase hex digits of the value with no leading zeros, and a single `0` for zero (R63). -/
def lowerHex (a : BitVec 5) : List Char := Nat.toDigits 16 a.toNat

/-- `render(a) = "0x" ++ lowerHex(a)` (R63). -/
def renderArg (a : BitVec 5) : List Char := '0' :: 'x' :: lowerHex a

/-- The text of a frame's argument, where it has one (R63). -/
def OutputFrame.argText (f : OutputFrame) : Option String := f.arg.map fun a => String.ofList (renderArg a)

end Sys2Proof
end

