-- ==== Sys2Proof/Machine/Pins.lean ====
section
/-! DEFINITION. Machine/Pins: the reset input in its electrical form, `RESET_STYLE` (00_scope.md R6, D4),
which every function here takes as an argument. It turns what is driven at the block's inputs into the slots
of the event level; below it nothing depends on `RESET_STYLE` (notes/assumptions/21.md). -/

namespace Sys2Proof

/-- The level that asserts the reset input. -/
def ResetStyle.activeLevel (style : ResetStyle) : Bool :=
  match style.polarity with
  | .activeHigh => true
  | .activeLow => false

/-- The reset input is asserted: at its active level and, where it is synchronous, sampled by the clock. -/
def ResetPin.asserted (style : ResetStyle) (pin : ResetPin) : Bool :=
  match style.timing with
  | .synchronous => pin.level == style.activeLevel && pin.atClock
  | .asynchronous => pin.level == style.activeLevel

/-- The slots of the event level that a drive of the inputs stands for: an asserted reset input is one reset
between two events, one that is not asserted is nothing, and a transfer is its slot. -/
def PinDrive.slots (style : ResetStyle) : PinDrive → List InputSlot
  | .resetPin pin => if pin.asserted style then [.reset] else []
  | .port t => [.port t]

namespace Machine

/-- The machine with drives of its inputs to come after what its input already holds. -/
def State.drivePins (s : State) (style : ResetStyle) (ds : List PinDrive) : State :=
  { s with input := s.input ++ ds.flatMap (PinDrive.slots style) }

end Machine

end Sys2Proof
end

