-- ==== Sys2Proof/Safety.lean ====
section
/-! DEFINITION. Safety: the terms the statements use: the spec's event-level step and run, the framer's
duty, the invariant of the machine, and the replacement of timestamps.

Nothing here is called by the machine.
-/

namespace Sys2Proof

/-! ## The event level of the spec (00_scope.md R10, 40_transaction_events.md R48 to R51) -/

/-- The step function in full, clause by clause (40_transaction_events.md R48). -/
def eventStep : Machine.DecoderState → InputEvent → Machine.DecoderState × Option OutputFrame
  | .disabled, .enable => (.awaitingOpcode, none)
  | .awaitingOpcode, .enable => (.awaitingOpcode, none)
  | _, .disable => (.disabled, none)
  | .disabled, .byteResult _ _ => (.disabled, none)
  | .awaitingOpcode, .byteResult b p =>
    (.awaitingOpcode,
      (mapFrame (b.extractLsb' 5 3) (b.extractLsb' 0 5)).map fun (k, oa) => { kind := k, arg := oa, span := p })

/-- One step of the run: the new decoder state, and the stream so far with the step's frame at its end
(`step'` of 40_transaction_events.md R49). -/
def eventStepAppend (acc : Machine.DecoderState × List OutputFrame) (e : InputEvent) :
    Machine.DecoderState × List OutputFrame :=
  ((eventStep acc.1 e).1, acc.2 ++ (eventStep acc.1 e).2.toList)

/-- The run over a list of events, from a decoder state and a stream so far, as a left fold
(40_transaction_events.md R49; the run from reset starts at `(Disabled, [])`). -/
def eventRun (acc : Machine.DecoderState × List OutputFrame) (es : List InputEvent) :
    Machine.DecoderState × List OutputFrame :=
  es.foldl eventStepAppend acc

/-- How many frames a run owes: the ByteResult events processed in `AwaitingOpcode` whose `b[7:5]` is not
`110` (40_transaction_events.md R51). Written from R51's words, not from the step function. -/
def framesOwed : Machine.DecoderState → List InputEvent → Nat
  | _, [] => 0
  | _, .enable :: es => framesOwed .awaitingOpcode es
  | _, .disable :: es => framesOwed .disabled es
  | .disabled, .byteResult _ _ :: es => framesOwed .disabled es
  | .awaitingOpcode, .byteResult b _ :: es =>
    (if b.toNat / 32 = 6 then 0 else 1) + framesOwed .awaitingOpcode es

/-- The events a slot stands for: none when `ev_valid = 0`, the one its `ev_kind` names otherwise
(30_encoding.md R38); reset acts on `st` as a Disable does (70_reset_and_hazards.md R75). -/
def InputSlot.events : InputSlot → List InputEvent
  | .reset => [.disable]
  | .port t =>
    if t.valid then
      match t.kind.toFin with
      | 0 => [.enable]
      | 1 => [.disable]
      | 2 => [.byteResult t.byte ⟨t.t0, t.t1⟩]
      | 3 => []
    else []

/-! ## The framer's duty (70_reset_and_hazards.md R81) -/

/-- The slot presents `ev_kind = 11`, which the framer must never do. -/
def InputSlot.reserved : InputSlot → Bool
  | .reset => false
  | .port t => t.valid && t.kind == 0b11#2

/-- The slot presents one of the three events. -/
def InputSlot.presentsEvent : InputSlot → Bool
  | .reset => false
  | .port t => t.valid && t.kind != 0b11#2

/-- The framer keeps its duty on everything it has yet to drive. -/
def DutyKept (s : Machine.State) : Prop := ∀ x ∈ s.input, x.reserved = false

/-! ## The invariant of the machine -/

/-- The timestamps a slot drives fit `TS_W` bits. -/
def InputSlot.fits (tsW : Nat) : InputSlot → Bool
  | .reset => true
  | .port t => t.t0.fits tsW && t.t1.fits tsW

/-- What holds in every state a run reaches, for a build of timestamp width `tsW`:
frames have the shape 30_encoding.md R40 asks, their timestamps fit, the frames presented and then the
pending ones are a subsequence of the emitted ones (so none is invented, repeated or moved), and the pending
counts rise strictly and stay below `LATENCY` (70_reset_and_hazards.md R79). -/
structure Inv (tsW : Nat) (s : Machine.State) : Prop where
  shape    : ∀ f ∈ s.emitted, f.shapeOk = true
  fits     : ∀ f ∈ s.emitted, f.span.fits tsW = true
  input    : ∀ x ∈ s.input, x.fits tsW = true
  ordered  : (s.presented ++ s.pending.map Machine.PendingFrame.frame).Sublist s.emitted
  rising   : s.pending.Pairwise fun p q => p.remaining < q.remaining
  below    : ∀ p ∈ s.pending, p.remaining < Config.latency

/-! ## What a command byte does (40_transaction_events.md R47, 41_commands.md R61) -/

namespace Machine

/-- From `s` to `t` the frame `f` was emitted and nothing else the spec's event level names has changed. How
the frame then reaches the output port (`pending`) is a matter of the port level, stated apart. -/
def Emits (s : State) (f : OutputFrame) (t : State) : Prop :=
  t.st = s.st ∧ t.emitted = s.emitted ++ [f] ∧ t.frOut = s.frOut ∧ t.presented = s.presented ∧
    t.input = s.input

/-- From `s` to `t` the frame was emitted; where there is none, nothing at all has changed. -/
def EmitsOrSkips (s : State) (o : Option OutputFrame) (t : State) : Prop :=
  match o with
  | some f => Emits s f t
  | none => t = s

/-- The template of one rule of 41_commands.md: the opcode's bits under the mask `0xE0`, its instruction by
the low five bits, and its frame by the low five bits. While `AwaitingOpcode`, the instruction emits that
frame with its byte's timestamps, exactly the bytes with those bits decode to it, and a ByteResult with such a
byte does the same. -/
def CommandRule (bits : Byte) (mk : BitVec 5 → Span → Instr)
    (row : BitVec 5 → Option (FrameKind × Option (BitVec 5))) : Prop :=
  ∀ (s : State) (p : Span), s.st = .awaitingOpcode →
    (∀ a : BitVec 5, ∃ t, exec (mk a p) s = .next t ∧
      EmitsOrSkips s ((row a).map fun r => { kind := r.1, arg := r.2, span := p }) t) ∧
    (∀ b : Byte, (b &&& 0xE0#8 = bits ↔ decodeCommand b p = mk (b.extractLsb' 0 5) p) ∧
      (b &&& 0xE0#8 = bits → ∃ t, exec (.br b p) s = .next t ∧
        EmitsOrSkips s ((row (b.extractLsb' 0 5)).map fun r => { kind := r.1, arg := r.2, span := p }) t))

end Machine

/-! ## Replacing timestamps (30_encoding.md R37: the block assumes nothing of `TS`) -/

/-- Both timestamps replaced. -/
def Span.mapTs (g : TS → TS) (p : Span) : Span := ⟨g p.startTime, g p.endTime⟩

/-- A frame with its timestamps replaced. -/
def OutputFrame.mapTs (g : TS → TS) (f : OutputFrame) : OutputFrame := { f with span := f.span.mapTs g }

/-- A slot with its timestamps replaced. -/
def InputSlot.mapTs (g : TS → TS) : InputSlot → InputSlot
  | .reset => .reset
  | .port t => .port { t with t0 := g t.t0, t1 := g t.t1 }

namespace Machine

/-- A pending frame with its timestamps replaced. -/
def PendingFrame.mapTs (g : TS → TS) (p : PendingFrame) : PendingFrame := { p with frame := p.frame.mapTs g }

/-- A state with every timestamp in it replaced. -/
def State.mapTs (g : TS → TS) (s : State) : State :=
  { st := s.st
    emitted := s.emitted.map (OutputFrame.mapTs g)
    pending := s.pending.map (PendingFrame.mapTs g)
    frOut := s.frOut.map (OutputFrame.mapTs g)
    presented := s.presented.map (OutputFrame.mapTs g)
    input := s.input.map (InputSlot.mapTs g) }

/-- An outcome with its next state, if any, changed by `h`. -/
def mapNext (h : State → State) : Host.Outcome State Fault Refusal → Host.Outcome State Fault Refusal
  | .next s => .next (h s)
  | .fault r => .fault r
  | .refused r => .refused r

end Machine

/-! ## The opcode map of the spec (30_encoding.md R33) -/

/-- One row of R33: the byte range, the frame (`none` where no frame is emitted) and the "carries arg" column. -/
structure OpcodeRow where
  lo    : Nat
  hi    : Nat
  frame : Option FrameKind
  carriesArg : Bool
  deriving DecidableEq, Repr

/-- The eight rows of 30_encoding.md R33, transcribed. -/
def opcodeMap : List OpcodeRow :=
  [ ⟨0x00, 0x1F, some .readControlRegister, true⟩,
    ⟨0x20, 0x3F, some .readBufferMemory, false⟩,
    ⟨0x40, 0x5F, some .writeControlRegister, true⟩,
    ⟨0x60, 0x7F, some .writeBufferMemory, false⟩,
    ⟨0x80, 0x9F, some .bitFieldSet, true⟩,
    ⟨0xA0, 0xBF, some .bitFieldClear, true⟩,
    ⟨0xC0, 0xDF, none, false⟩,
    ⟨0xE0, 0xFF, some .systemResetCommand, false⟩ ]

/-- The frame a row gives for a byte in its range: the argument, where carried, is the byte's offset in the
range (the low five bits, since each range starts at a multiple of 32). -/
def OpcodeRow.frameFor (r : OpcodeRow) (b : Byte) (p : Span) : Option OutputFrame :=
  r.frame.map fun k =>
    { kind := k, arg := if r.carriesArg then some (BitVec.ofNat 5 (b.toNat - r.lo)) else none, span := p }

end Sys2Proof
end

