-- ==== Sys2Proof/Certificates/Slice0/Obligations.lean ====
section
/-! DEFINITION. Obligations: the statements for the provers, from the numbered rules of spec/.

A statement that rests on the port level, on `LATENCY` or on another of the spec's own decisions (D1 to D20)
or of this model's (notes/assumptions) says so in its docstring and is listed as derived.
-/

open Sys2Proof Sys2Proof.Machine

/-! ## Reset -/

/-- 10_state.md R19: the reset value of `st`, and an empty output frame stream. -/
def Obligations.ResetLeavesDisabledAndEmptyStream : Prop :=
  State.reset.st = .disabled ∧ State.reset.emitted = []

/-- 70_reset_and_hazards.md, section 1 ("At the port level, `fr_valid = 0` until a ByteResult is decoded"):
`fr_valid = 0` after reset, and a run that starts with nothing on its way to the port and has emitted no frame
still has `fr_valid = 0`. Rests on D4 and D11 and on this model's port level (notes/assumptions/4.md, 7.md). -/
def Obligations.FrValidStaysZeroUntilAFrameIsEmitted : Prop :=
  State.reset.frValid = false ∧
  ∀ (k : Nat) (s t : State), s.pending = [] → s.frOut = none → Host.Core.run core k s = .next t →
    t.emitted = s.emitted → t.frValid = false

/-- 70_reset_and_hazards.md section 1, reset during a transaction (the spec's decision D4): a reset slot gives
`st = Disabled`, keeps the frames emitted and presented, and discards those not yet presented. -/
def Obligations.ResetSlotClosesAndDiscardsUnpresented : Prop :=
  ∀ (s : State) (rest : List InputSlot), s.input = .reset :: rest →
    step s = .next { s with st := .disabled, pending := [], frOut := none, input := rest }

/-- 00_scope.md section 3, `RESET_STYLE` (D4; what the two timings mean at the reset input is PRESUMED,
notes/assumptions/21.md): the reset input is asserted at the level the polarity names, under a synchronous
style only where the clock samples it; every style can present every input of the event level, so none can be
told from another there; and an asserted reset input, next at the block's inputs, resets, while one that is
not asserted is nothing. -/
def Obligations.ResetStyleCannotBeSeenAtTheEventLevel : Prop :=
  (∀ (style : ResetStyle) (pin : ResetPin), pin.asserted style = true ↔
    (pin.level = true ↔ style.polarity = .activeHigh) ∧
      (style.timing = .synchronous → pin.atClock = true)) ∧
  (∀ (style : ResetStyle) (xs : List InputSlot), ∃ ds : List PinDrive,
    ds.flatMap (PinDrive.slots style) = xs) ∧
  (∀ (style : ResetStyle) (pin : ResetPin) (s : State) (ds : List PinDrive), s.input = [] →
    (pin.asserted style = true →
      step (s.drivePins style (.resetPin pin :: ds)) = .next (s.assertReset.drivePins style ds)) ∧
    (pin.asserted style = false → s.drivePins style (.resetPin pin :: ds) = s.drivePins style ds))

/-! ## The three events -/

/-- 40_transaction_events.md R43: an Enable while `Disabled` enters `AwaitingOpcode` and emits nothing; it is
`ev_kind = 00` whatever the other signals hold; it is the only way to leave `Disabled`. -/
def Obligations.EnableFromDisabledOpensTransaction : Prop :=
  (∀ s : State, s.st = .disabled → exec .en s = .next { s with st := .awaitingOpcode }) ∧
  (∀ tr : Transfer, tr.kind = 0b00#2 → decodeEvent tr = .ok .en) ∧
  (∀ (i : Instr) (s t : State), s.st = .disabled → exec i s = .next t → t.st ≠ .disabled → i = .en)

/-- 40_transaction_events.md section 1, Enable while `AwaitingOpcode` (the spec's decision D3): nothing
changes. -/
def Obligations.EnableWhileAwaitingChangesNothing : Prop :=
  ∀ s : State, s.st = .awaitingOpcode → exec .en s = .next s

/-- 40_transaction_events.md R45: a Disable gives `Disabled` from any state and emits nothing; frames already
emitted stay; it is `ev_kind = 01`. -/
def Obligations.DisableClosesFromAnyState : Prop :=
  (∀ s : State, exec .dis s = .next { s with st := .disabled }) ∧
  (∀ tr : Transfer, tr.kind = 0b01#2 → decodeEvent tr = .ok .dis)

/-- 40_transaction_events.md R46: a ByteResult while `Disabled` changes nothing, for every byte and every
command the byte stands for; it is `ev_kind = 10`. -/
def Obligations.ByteWhileDisabledIsIgnored : Prop :=
  (∀ (b : Byte) (p : Span) (s : State), s.st = .disabled →
    exec (.br b p) s = .next s ∧ exec (decodeCommand b p) s = .next s) ∧
  (∀ tr : Transfer, tr.kind = 0b10#2 → decodeEvent tr = .ok (.br tr.byte ⟨tr.t0, tr.t1⟩))

/-- 40_transaction_events.md R47: a ByteResult while `AwaitingOpcode` emits what the frame mapper gives for
`b[7:5]` and `b[4:0]`, with the byte's timestamps, and leaves `st`; where the mapper gives none, it changes
nothing. It is presented with `ev_kind = 10`. -/
def Obligations.ByteWhileAwaitingEmitsMappedFrame : Prop :=
  ∀ (b : Byte) (t0 t1 : TS) (s : State), s.st = .awaitingOpcode →
    decodeEvent ⟨true, 0b10#2, b, t0, t1⟩ = .ok (.br b ⟨t0, t1⟩) ∧
    ∃ t, exec (.br b ⟨t0, t1⟩) s = .next t ∧
      EmitsOrSkips s
        ((mapFrame (b.extractLsb' 5 3) (b.extractLsb' 0 5)).map
          fun r => { kind := r.1, arg := r.2, span := { startTime := t0, endTime := t1 } }) t

/-! ## The eight opcodes -/

/-- 41_commands.md R53, R55, R57, R58: the four opcodes that carry an argument, each by the rule's template
(`CommandRule`): the frame has `arg = some b[4:0]` for every one of the 32 values. -/
def Obligations.ArgumentCommandsEmitTheirFrame : Prop :=
  CommandRule 0x00#8 .rcr (fun a => some (.readControlRegister, some a)) ∧
  CommandRule 0x40#8 .wcr (fun a => some (.writeControlRegister, some a)) ∧
  CommandRule 0x80#8 .bfs (fun a => some (.bitFieldSet, some a)) ∧
  CommandRule 0xA0#8 .bfc (fun a => some (.bitFieldClear, some a))

/-- 41_commands.md R54, R56, R60: the three opcodes without an argument; the low five bits are ignored. SRC
resets nothing: `st` stays. -/
def Obligations.NoArgumentCommandsEmitTheirFrame : Prop :=
  CommandRule 0x20#8 .rbm (fun _ => some (.readBufferMemory, none)) ∧
  CommandRule 0x60#8 .wbm (fun _ => some (.writeBufferMemory, none)) ∧
  CommandRule 0xE0#8 .src (fun _ => some (.systemResetCommand, none))

/-- 41_commands.md R59: opcode `110` emits nothing, changes nothing and is no fault and no refusal. -/
def Obligations.Opcode110IsSkipped : Prop :=
  CommandRule 0xC0#8 .unrecognized110 (fun _ => none)

/-- 30_encoding.md R33: the whole opcode map. Every byte lies in exactly one row's range, and while
`AwaitingOpcode` a ByteResult with a byte in a row's range emits the row's frame, with the byte's offset in
the range as its argument where the row carries one. -/
def Obligations.OpcodeMapDecidesEveryByte : Prop :=
  (∀ b : Byte, ∃ r ∈ opcodeMap, (r.lo ≤ b.toNat ∧ b.toNat ≤ r.hi) ∧
    ∀ r' ∈ opcodeMap, r'.lo ≤ b.toNat → b.toNat ≤ r'.hi → r' = r) ∧
  ∀ r ∈ opcodeMap, ∀ (b : Byte) (p : Span) (s : State), r.lo ≤ b.toNat → b.toNat ≤ r.hi →
    s.st = .awaitingOpcode →
    ∃ t, exec (.br b p) s = .next t ∧ EmitsOrSkips s (r.frameFor b p) t

/-- 41_commands.md R61: decoding a command has no effect but its emission, of at most one frame; `st`, the
input and the output port stay as they are. Said of the command and of the ByteResult that delivers it. -/
def Obligations.CommandHasNoEffectButItsEmission : Prop :=
  ∀ (i : Instr) (b : Byte) (p : Span) (s t : State), i = decodeCommand b p ∨ i = .br b p →
    exec i s = .next t →
    t.st = s.st ∧ t.frOut = s.frOut ∧ t.presented = s.presented ∧ t.input = s.input ∧
      (t = s ∨ ∃ f, t.emitted = s.emitted ++ [f])

/-- 30_encoding.md R40, 41_commands.md R62: the shape of an emitted frame (an argument iff the variant is
RCR, WCR, BFS or BFC) and its timestamps, which are those of the instruction's byte with no condition on
their order. -/
def Obligations.EmittedFrameHasShapeAndTimestamps : Prop :=
  ∀ (i : Instr) (s t : State) (f : OutputFrame), exec i s = .next t → t.emitted = s.emitted ++ [f] →
    (f.arg.isSome = true ↔ f.kind = .readControlRegister ∨ f.kind = .writeControlRegister ∨
      f.kind = .bitFieldSet ∨ f.kind = .bitFieldClear) ∧
    i.span? = some f.span

/-- 41_commands.md section 1, an inference the spec marks as its own: the mapper is injective on recognised
opcodes, and `110` is the only one not recognised. -/
def Obligations.MapperIsInjectiveOnRecognisedOpcodes : Prop :=
  (∀ (op op' : BitVec 3) (a a' : BitVec 5) (k : FrameKind) (oa oa' : Option (BitVec 5)),
    mapFrame op a = some (k, oa) → mapFrame op' a' = some (k, oa') → op = op') ∧
  (∀ (op : BitVec 3) (a : BitVec 5), mapFrame op a = none ↔ op = 0b110#3)

/-! ## Bytes and their fields -/

/-- 30_encoding.md R30, R31: the opcode is `(byte >> 5) & 0b111`, the argument is `byte & 0b11111`, unsigned
and in the range 0 to 31. -/
def Obligations.FieldsAreShiftAndMask : Prop :=
  ∀ b : Byte, (opcode b).toNat = (b.toNat >>> 5) &&& 0b111 ∧ (arg b).toNat = b.toNat &&& 0b11111 ∧
    (arg b).toNat ≤ 31

/-- 30_encoding.md R32, R35: every byte is a legal input; the low five bits have no effect under `001`,
`011`, `110` and `111`, whose frame, if any, has no argument; under the other four they go out unchanged as
the argument. -/
def Obligations.EveryByteIsLegalAndLowBitsAreArgumentOrNothing : Prop :=
  (∀ (b : Byte) (p : Span) (s : State), ∃ t, exec (.br b p) s = .next t) ∧
  (∀ (b b' : Byte) (p : Span) (s : State), opcode b = opcode b' →
    opcode b ∈ [0b001#3, 0b011#3, 0b110#3, 0b111#3] → exec (.br b p) s = exec (.br b' p) s) ∧
  (∀ (b : Byte) (p : Span) (s : State), s.st = .awaitingOpcode →
    opcode b ∈ [0b001#3, 0b011#3, 0b111#3] →
    ∃ t f, exec (.br b p) s = .next t ∧ Emits s f t ∧ f.arg = none) ∧
  (∀ (b : Byte) (p : Span) (s : State), s.st = .awaitingOpcode →
    opcode b ∈ [0b000#3, 0b010#3, 0b100#3, 0b101#3] →
    ∃ t f, exec (.br b p) s = .next t ∧ Emits s f t ∧ f.arg = some (b.extractLsb' 0 5))

/-- 30_encoding.md R36: no byte changes how a later byte is decoded. Whatever byte came first, the next one
has the outcome it has without it: the same `st` and the same frames added. -/
def Obligations.EachByteIsDecodedOnItsOwn : Prop :=
  ∀ (b b' : Byte) (p p' : Span) (s t : State), exec (.br b p) s = .next t →
    ∃ (u u' : State) (fs : List OutputFrame),
      exec (.br b' p') t = .next u ∧ exec (.br b' p') s = .next u' ∧ u.st = u'.st ∧
        u.emitted = t.emitted ++ fs ∧ u'.emitted = s.emitted ++ fs

/-- 10_state.md R18: nothing from an event is kept but `st`. Two states that agree on `st` answer every
instruction with the same `st` and the same frame, whatever else they hold. -/
def Obligations.OnlyTheStateRegisterIsKept : Prop :=
  ∀ (i : Instr) (s s' : State), s.st = s'.st →
    ∃ (t t' : State) (o : Option OutputFrame),
      exec i s = .next t ∧ exec i s' = .next t' ∧ t.st = t'.st ∧
        t.emitted = s.emitted ++ o.toList ∧ t'.emitted = s'.emitted ++ o.toList

/-- 20_memory.md section 3, an inference the spec marks as its own: a second Enable or Disable changes
nothing; a second copy of a byte that emits a frame emits it again. -/
def Obligations.BoundariesAreIdempotentAndBytesAreNot : Prop :=
  (∀ i : Instr, i = .en ∨ i = .dis → ∀ s t : State, exec i s = .next t → exec i t = .next t) ∧
  (∀ (b : Byte) (p : Span) (s t : State) (f : OutputFrame), exec (.br b p) s = .next t →
    t.emitted = s.emitted ++ [f] → ∃ u, exec (.br b p) t = .next u ∧ u.emitted = s.emitted ++ [f, f])

/-! ## Absence of exceptions, and what stops -/

/-- 60_exceptions.md R64: no instruction raises anything, in any state: each answers a next state. The block
has no exception type. -/
def Obligations.NoInstructionRaises : Prop :=
  (∀ (i : Instr) (s : State), ∃ t, exec i s = .next t) ∧ ¬ ∃ _ : Fault, True

/-- 60_exceptions.md section 3 (the spec's decision D8): a step answers a next state unless the next slot
presents `ev_kind = 11`. -/
def Obligations.OnlyTheReservedKindStopsAStep : Prop :=
  ∀ s : State, (∃ t, step s = .next t) ↔ s.input.head?.all (fun x => !x.reserved) = true

/-- 60_exceptions.md section 3 (the spec's decision D8): a presented `ev_kind = 11` is refused, and the
refusal is kept for the whole run, whatever ran before it and however many steps are asked for after it. -/
def Obligations.ReservedKindIsRefusedForTheWholeRun : Prop :=
  ∀ (k m : Nat) (s t : State) (tr : Transfer) (rest : List InputSlot),
    Host.Core.run core k s = .next t → t.input = .port tr :: rest → tr.valid = true → tr.kind = 0b11#2 →
    Host.Core.run core (k + 1 + m) s = .refused .reservedEventKind

/-- 70_reset_and_hazards.md section 4: while the framer keeps its duty, no run of any length stops, and what
is left of the input still keeps it. The block accepts every event (the spec's decisions D8 and D12). -/
def Obligations.RunUnderTheDutyNeverStops : Prop :=
  ∀ (k : Nat) (s : State), DutyKept s → ∃ t, Host.Core.run core k s = .next t ∧ DutyKept t ∧
    t.input = s.input.drop k

/-- 60_exceptions.md section 3 (the spec's decisions D1 and D2): the two codes of `st` read back, in a
register of any width; every other code a wider register can hold is refused. -/
def Obligations.WiderStateRegisterIsRefusedOutsideTwoCodes : Prop :=
  (∀ d : DecoderState, DecoderState.ofCode d.code = .next d) ∧
  (∀ (w : Nat) (v : BitVec w), v.toNat = 0 → DecoderState.ofCode v = .next .disabled) ∧
  (∀ (w : Nat) (v : BitVec w), v.toNat = 1 → DecoderState.ofCode v = .next .awaitingOpcode) ∧
  (∀ (w : Nat) (v : BitVec w), 2 ≤ v.toNat → DecoderState.ofCode v = .refused .unreachableState)

/-! ## Decoding and encoding -/

/-- 30_encoding.md sections 1 and 2 (port encoding by D7): a presented transfer decodes, at the format of the
instruction's row, to exactly the instruction it encodes, for every instruction and every operand; and it is
presentable by a build of timestamp width `tsW` iff the instruction is well formed at that width. -/
def Obligations.DecodeOfEncodeIsTheInstruction : Prop :=
  ∀ i : Instr, decodeAs i.format (encode i) = some i ∧ (encode i).valid = true ∧
    ∀ tsW, i.wellFormed tsW = InputSlot.fits tsW (.port (encode i))

/-- The other direction (D7): what a presented transfer decodes to encodes back to it, in every signal that
its `ev_kind` says is read. -/
def Obligations.EncodeOfDecodeIsTheTransfer : Prop :=
  ∀ tr : Transfer, tr.valid = true →
    (∀ i, decodeEvent tr = .ok i → (encode i).valid = true ∧ (encode i).kind = tr.kind ∧
      (tr.kind = 0b10#2 → encode i = tr)) ∧
    (tr.kind = 0b10#2 → encode (decodeCommand tr.byte tr.span) = tr) ∧
    (decodeEvent tr = .error .reservedEventKind ↔ tr.kind = 0b11#2)

/-- Bytes written out from 30_encoding.md R29 and R33 (`opcode ++ arg`) decode to their commands, and the event
kinds of R38 (the spec's decision D7) to their events. That a 2-bit table word is read on the event port, and
BR there as byte `0x00` with the timestamps of code 0, is the model's own numbering of table words, a DESIGN
CHOICE (notes/assumptions/10.md, and 3.md for code 0), no rule of the spec. -/
def Obligations.WrittenOutWordsDecode : Prop :=
  ∀ p : Span,
    decodeCommand 0b00000101#8 p = .rcr 5#5 p ∧ decodeCommand 0b00111010#8 p = .rbm 26#5 p ∧
    decodeCommand 0b01011111#8 p = .wcr 31#5 p ∧ decodeCommand 0b01111010#8 p = .wbm 26#5 p ∧
    decodeCommand 0b10011111#8 p = .bfs 31#5 p ∧ decodeCommand 0b10100011#8 p = .bfc 3#5 p ∧
    decodeCommand 0b11000111#8 p = .unrecognized110 7#5 p ∧ decodeCommand 0b11111111#8 p = .src 31#5 p ∧
    decodeTableWord 2 0b00 = some .en ∧ decodeTableWord 2 0b01 = some .dis ∧
    decodeTableWord 2 0b10 = some (.br 0#8 ⟨.zero, .zero⟩) ∧ decodeTableWord 2 0b11 = none

/-- 30_encoding.md section 3, assembly (the spec's decision D15): the byte each spelling assembles to, the
operands that assemble to nothing, and `.byte` as the only spelling of an opcode-`110` byte. -/
def Obligations.SpellingsAssembleToTheirBytes : Prop :=
  (∀ a : Nat, a < 32 →
    assemble (.rcr a) = some (BitVec.ofNat 8 a) ∧
    assemble (.wcr a) = some (0x40#8 ||| BitVec.ofNat 8 a) ∧
    assemble (.bfs a) = some (0x80#8 ||| BitVec.ofNat 8 a) ∧
    assemble (.bfc a) = some (0xA0#8 ||| BitVec.ofNat 8 a) ∧
    assemble (.rbm a) = some (0x20#8 ||| BitVec.ofNat 8 a) ∧
    assemble (.wbm a) = some (0x60#8 ||| BitVec.ofNat 8 a) ∧
    assemble (.src a) = some (0xE0#8 ||| BitVec.ofNat 8 a)) ∧
  (∀ a : Nat, 32 ≤ a → ∀ x ∈ [Spelling.rcr a, .wcr a, .bfs a, .bfc a, .rbm a, .wbm a, .src a],
    assemble x = none) ∧
  (∀ b : Byte, assemble (.byte b.toNat) = some b) ∧
  (∀ (x : Spelling) (b : Byte), assemble x = some b → opcode b = 0b110#3 → x = .byte b.toNat)

/-- 30_encoding.md section 2 (D7, D6): the signals that are read only under `ev_kind = 10` have no effect
under other kinds, and none has an effect while `ev_valid = 0`. -/
def Obligations.UnreadSignalsHaveNoEffectOnAStep : Prop :=
  ∀ (s : State) (a b : Transfer) (rest : List InputSlot), a.valid = b.valid →
    (a.valid = true → a.kind = b.kind ∧ a.kind ≠ 0b10#2) →
    step { s with input := .port a :: rest } = step { s with input := .port b :: rest }

/-! ## A step runs the decoded instruction -/

/-- What a step does: a presented transfer that decodes to `i` runs `i` with that slot taken from the input,
then the output port presents what is due; a slot with `ev_valid = 0`, and an input with nothing left, only
let the output port go on. The port level is the spec's decisions D7 and D11. The model's own choices in it,
each a DESIGN CHOICE and no rule of the spec: the input as a list of slots (notes/assumptions/1.md), an input
with nothing left as an idle slot (2.md), whether idle slots count, by `Config.idleSlotsCount` (5.md), and the
port presenting after the event in the same slot (17.md, unsafe). -/
def Obligations.StepRunsTheDecodedEvent : Prop :=
  (∀ (s t : State) (tr : Transfer) (rest : List InputSlot) (i : Instr), s.input = .port tr :: rest →
    tr.valid = true → decodeEvent tr = .ok i → exec i { s with input := rest } = .next t →
    step s = .next (t.drivePort true)) ∧
  (∀ (s : State) (tr : Transfer) (rest : List InputSlot), s.input = .port tr :: rest → tr.valid = false →
    step s = .next (State.drivePort { s with input := rest } Config.idleSlotsCount)) ∧
  (∀ s : State, s.input = [] → step s = .next (s.drivePort Config.idleSlotsCount))

/-- spec/opcode_table.json, row BR ("decode ev_byte as a command_byte row"), 41_commands.md: in every state a
ByteResult does exactly what the command its byte decodes to does. So the eight command meanings reach a run
through BR. -/
def Obligations.ByteResultRunsTheCommandOfItsByte : Prop :=
  ∀ (b : Byte) (p : Span) (s : State), exec (.br b p) s = exec (decodeCommand b p) s

/-! ## Whole runs against the event level -/

/-- 40_transaction_events.md section 4: over any slots that keep the framer's duty, from any state, the
machine ends with the `st` and the output frame stream that the spec's fold of its step function gives for the
events of those slots. Idle slots stand for no event (D7), a reset slot for a Disable in its effect on `st`
(D4). -/
def Obligations.RunIsTheFoldOfTheEventStep : Prop :=
  ∀ (xs rest : List InputSlot) (s : State), (∀ x ∈ xs, x.reserved = false) → s.input = xs ++ rest →
    ∃ t, Host.Core.run core xs.length s = .next t ∧ t.input = rest ∧
      (t.st, t.emitted) = eventRun (s.st, s.emitted) (xs.flatMap InputSlot.events)

/-- 40_transaction_events.md section 4, an inference the spec marks as its own: the number of frames a run
adds is the number of ByteResult events processed while `AwaitingOpcode` whose `b[7:5]` is not `110`. -/
def Obligations.RunEmitsOneFramePerQualifyingByte : Prop :=
  ∀ (xs rest : List InputSlot) (s : State), (∀ x ∈ xs, x.reserved = false) → s.input = xs ++ rest →
    ∃ t, Host.Core.run core xs.length s = .next t ∧
      t.emitted.length = s.emitted.length + framesOwed s.st (xs.flatMap InputSlot.events)

/-- 40_transaction_events.md section 4, an inference the spec marks as its own: Disable (and reset, D4)
forgets everything. From any two states that go on with the same input beginning with a Disable or a reset,
the same `st` and the same further frames follow. -/
def Obligations.DisableForgetsTheTransaction : Prop :=
  ∀ (x : InputSlot) (xs rest rest' : List InputSlot) (s s' : State), x.events = [.disable] →
    (∀ y ∈ xs, y.reserved = false) → s.input = x :: xs ++ rest → s'.input = x :: xs ++ rest' →
    ∃ (t t' : State) (fs : List OutputFrame),
      Host.Core.run core (xs.length + 1) s = .next t ∧ Host.Core.run core (xs.length + 1) s' = .next t' ∧
        t.st = t'.st ∧ t.emitted = s.emitted ++ fs ∧ t'.emitted = s'.emitted ++ fs

/-- 40_transaction_events.md section 1 and 70_reset_and_hazards.md section 1, over steps: `st` leaves
`Disabled` only on a presented Enable, and leaves `AwaitingOpcode` only on a presented Disable or a reset. -/
def Obligations.OnlyBoundariesMoveTheStateRegister : Prop :=
  ∀ s t : State, step s = .next t → t.st ≠ s.st →
    ∃ (x : InputSlot) (rest : List InputSlot), s.input = x :: rest ∧
      (s.st = .disabled → x.events = [.enable]) ∧ (s.st = .awaitingOpcode → x.events = [.disable])

/-! ## The output port -/

/-- 30_encoding.md section 3 (D9, D10): for every byte that emits, the port's tag is the opcode, `fr_has_arg`
says whether the variant carries an argument, `fr_arg` is `b[4:0]` or `00000`, the timestamps are the byte's,
and a consumer that obeys `fr_has_arg` reads the frame back. `110` is never presented. -/
def Obligations.FramePortShowsTheEmittedFrame : Prop :=
  ∀ (b : Byte) (p : Span) (s t : State) (f : OutputFrame), exec (.br b p) s = .next t →
    t.emitted = s.emitted ++ [f] →
    f.signals.tag = b.extractLsb' 5 3 ∧ f.signals.tag ≠ 0b110#3 ∧
    (f.signals.hasArg = true ↔ b.extractLsb' 5 3 ∈ [0b000#3, 0b010#3, 0b100#3, 0b101#3]) ∧
    f.signals.arg = (if f.signals.hasArg then b.extractLsb' 0 5 else 0#5) ∧
    f.signals.t0 = p.startTime ∧ f.signals.t1 = p.endTime ∧ f.signals.frame? = some f

/-- 70_reset_and_hazards.md section 3 (D11; notes/assumptions/4.md): what an instruction emits, and only that,
joins the frames on their way to the port, at the back and with the whole `LATENCY` to wait. -/
def Obligations.EmittedFramesJoinThePortQueue : Prop :=
  ∀ (i : Instr) (s t : State), exec i s = .next t →
    ∃ o : Option OutputFrame, t.emitted = s.emitted ++ o.toList ∧
      t.pending = s.pending ++ o.toList.map (fun f => ⟨Config.latency, f⟩)

/-- 70_reset_and_hazards.md section 3 (D11, D12): over a step that is no reset, the port presents frames in the
order they were emitted, each once and none lost: the presented frames followed by the pending ones grow by
exactly what the step emits, and the presented frames by what `fr_valid` shows. -/
def Obligations.PortPresentsInOrderExactlyOnce : Prop :=
  ∀ s t : State, step s = .next t → s.input.head? ≠ some .reset →
    ∃ o : Option OutputFrame, t.emitted = s.emitted ++ o.toList ∧
      t.presented ++ t.pending.map PendingFrame.frame =
        s.presented ++ s.pending.map PendingFrame.frame ++ o.toList ∧
      t.presented = s.presented ++ t.frOut.toList

/-- 70_reset_and_hazards.md section 3 (D11; notes/assumptions/4.md, 17.md): from a state that meets the
invariant, the frame of a byte is on the port exactly `LATENCY` presented events after the slot that accepts
the byte: in that slot all older frames and this one have been presented, and in no slot before it has this
one. For `LATENCY = 0` it is the accepting slot itself. -/
def Obligations.FrameIsPresentedAfterLatency : Prop :=
  ∀ (tsW : Nat) (s : State) (tr : Transfer) (xs rest : List InputSlot) (f : OutputFrame), Inv tsW s →
    s.st = .awaitingOpcode → s.input = .port tr :: xs ++ rest → tr.valid = true → tr.kind = 0b10#2 →
    byteFrame tr.byte tr.span = some f → xs.length = Config.latency →
    (∀ x ∈ xs, x.presentsEvent = true) →
    (∃ t, Host.Core.run core (Config.latency + 1) s = .next t ∧ t.frOut = some f ∧
      t.presented = s.presented ++ s.pending.map PendingFrame.frame ++ [f]) ∧
    (∀ (j : Nat) (u : State), j ≤ Config.latency → Host.Core.run core j s = .next u →
      u.presented.length ≤ s.presented.length + s.pending.length)

/-! ## The invariant -/

/-- Every step that answers keeps the invariant, from every state that meets it, at every timestamp width:
frames keep the shape of 30_encoding.md R40, timestamps stay within `TS_W` bits, the port's frames are a
subsequence of the emitted ones, the pending counts rise strictly and stay below `LATENCY`. -/
def Obligations.EveryStepKeepsTheInvariant : Prop :=
  ∀ (tsW : Nat) (s t : State), Inv tsW s → step s = .next t → Inv tsW t

/-- The invariant holds at reset, with any input that fits the timestamp width. -/
def Obligations.ResetMeetsTheInvariant : Prop :=
  ∀ (tsW : Nat) (xs : List InputSlot), (∀ x ∈ xs, x.fits tsW = true) →
    Inv tsW { State.reset with input := xs }

/-! ## Timestamps are opaque -/

/-- 30_encoding.md section 2 (D5): the block never compares, orders or computes with timestamps. Replacing
every timestamp in a state by any function of it, equal ones kept apart or merged, commutes with the step. -/
def Obligations.StepIsBlindToTimestampValues : Prop :=
  ∀ (g : TS → TS) (s : State), step (s.mapTs g) = mapNext (State.mapTs g) (step s)
end

