-- ==== Sys2Proof/Laws/State.lean ====
section
/-! SUPPORT. Laws/State: what each state operation leaves in each field, so that no proof unfolds a record
update. -/

namespace Sys2Proof.Machine

variable (s : State)

@[simp] theorem setSt_st (v : DecoderState) : (s.setSt v).st = v := rfl
@[simp] theorem setSt_emitted (v : DecoderState) : (s.setSt v).emitted = s.emitted := rfl
@[simp] theorem setSt_pending (v : DecoderState) : (s.setSt v).pending = s.pending := rfl
@[simp] theorem setSt_frOut (v : DecoderState) : (s.setSt v).frOut = s.frOut := rfl
@[simp] theorem setSt_presented (v : DecoderState) : (s.setSt v).presented = s.presented := rfl
@[simp] theorem setSt_input (v : DecoderState) : (s.setSt v).input = s.input := rfl

@[simp] theorem emit_st (f : OutputFrame) : (s.emit f).st = s.st := rfl
@[simp] theorem emit_emitted (f : OutputFrame) : (s.emit f).emitted = s.emitted ++ [f] := rfl
@[simp] theorem emit_pending (f : OutputFrame) : (s.emit f).pending = s.pending ++ [⟨Config.latency, f⟩] := rfl
@[simp] theorem emit_frOut (f : OutputFrame) : (s.emit f).frOut = s.frOut := rfl
@[simp] theorem emit_presented (f : OutputFrame) : (s.emit f).presented = s.presented := rfl
@[simp] theorem emit_input (f : OutputFrame) : (s.emit f).input = s.input := rfl

@[simp] theorem emitOption_none : s.emitOption none = s := rfl
@[simp] theorem emitOption_some (f : OutputFrame) : s.emitOption (some f) = s.emit f := rfl
@[simp] theorem emitOption_st (o : Option OutputFrame) : (s.emitOption o).st = s.st := by cases o <;> rfl
@[simp] theorem emitOption_emitted (o : Option OutputFrame) :
    (s.emitOption o).emitted = s.emitted ++ o.toList := by cases o <;> simp
@[simp] theorem emitOption_pending (o : Option OutputFrame) :
    (s.emitOption o).pending = s.pending ++ o.toList.map (fun f => ⟨Config.latency, f⟩) := by cases o <;> simp
@[simp] theorem emitOption_frOut (o : Option OutputFrame) : (s.emitOption o).frOut = s.frOut := by
  cases o <;> rfl
@[simp] theorem emitOption_presented (o : Option OutputFrame) : (s.emitOption o).presented = s.presented := by
  cases o <;> rfl
@[simp] theorem emitOption_input (o : Option OutputFrame) : (s.emitOption o).input = s.input := by
  cases o <;> rfl

@[simp] theorem consume_st : s.consume.st = s.st := rfl
@[simp] theorem consume_emitted : s.consume.emitted = s.emitted := rfl
@[simp] theorem consume_pending : s.consume.pending = s.pending := rfl
@[simp] theorem consume_frOut : s.consume.frOut = s.frOut := rfl
@[simp] theorem consume_presented : s.consume.presented = s.presented := rfl
@[simp] theorem consume_input : s.consume.input = s.input.tail := rfl

@[simp] theorem drivePort_st (c : Bool) : (s.drivePort c).st = s.st := rfl
@[simp] theorem drivePort_emitted (c : Bool) : (s.drivePort c).emitted = s.emitted := rfl
@[simp] theorem drivePort_input (c : Bool) : (s.drivePort c).input = s.input := rfl
@[simp] theorem drivePort_frOut_true : (s.drivePort true).frOut = dueFrame s.pending := rfl
@[simp] theorem drivePort_pending_true : (s.drivePort true).pending = restPending s.pending := rfl
@[simp] theorem drivePort_presented_true :
    (s.drivePort true).presented = s.presented ++ (dueFrame s.pending).toList := rfl
@[simp] theorem drivePort_frOut_false : (s.drivePort false).frOut = none := rfl
@[simp] theorem drivePort_pending_false : (s.drivePort false).pending = s.pending := rfl
@[simp] theorem drivePort_presented_false : (s.drivePort false).presented = s.presented := by
  simp [State.drivePort]

@[simp] theorem assertReset_st : s.assertReset.st = .disabled := rfl
@[simp] theorem assertReset_emitted : s.assertReset.emitted = s.emitted := rfl
@[simp] theorem assertReset_pending : s.assertReset.pending = [] := rfl
@[simp] theorem assertReset_frOut : s.assertReset.frOut = none := rfl
@[simp] theorem assertReset_presented : s.assertReset.presented = s.presented := rfl
@[simp] theorem assertReset_input : s.assertReset.input = s.input := rfl

@[simp] theorem reset_st : State.reset.st = .disabled := rfl
@[simp] theorem reset_emitted : State.reset.emitted = [] := rfl
@[simp] theorem reset_pending : State.reset.pending = [] := rfl
@[simp] theorem reset_frOut : State.reset.frOut = none := rfl
@[simp] theorem reset_presented : State.reset.presented = [] := rfl
@[simp] theorem reset_input : State.reset.input = [] := rfl

@[simp] theorem withFetchWord_input (nbits w : Nat) :
    (s.withFetchWord nbits w).input = .port (tableTransfer nbits w) :: s.input := rfl
@[simp] theorem drivePins_input (style : ResetStyle) (ds : List PinDrive) :
    (s.drivePins style ds).input = s.input ++ ds.flatMap (PinDrive.slots style) := rfl
@[simp] theorem drivePins_st (style : ResetStyle) (ds : List PinDrive) :
    (s.drivePins style ds).st = s.st := rfl
@[simp] theorem drivePins_emitted (style : ResetStyle) (ds : List PinDrive) :
    (s.drivePins style ds).emitted = s.emitted := rfl
@[simp] theorem drivePins_pending (style : ResetStyle) (ds : List PinDrive) :
    (s.drivePins style ds).pending = s.pending := rfl
@[simp] theorem drivePins_frOut (style : ResetStyle) (ds : List PinDrive) :
    (s.drivePins style ds).frOut = s.frOut := rfl
@[simp] theorem drivePins_presented (style : ResetStyle) (ds : List PinDrive) :
    (s.drivePins style ds).presented = s.presented := rfl

@[simp] theorem withFetchWord_st (nbits w : Nat) : (s.withFetchWord nbits w).st = s.st := rfl

end Sys2Proof.Machine
end

