-- ==== Sys2Proof/Laws/Ops.lean ====
section
/-! SUPPORT. Laws/Ops: what the field extractor, the decoders, the shared operations and one step do, each
said once. -/

namespace Sys2Proof

/-! ## The command byte -/

@[simp] theorem opcode_commandByte (op : BitVec 3) (a : BitVec 5) : opcode (commandByte op a) = op := by
  revert op a; decide

@[simp] theorem arg_commandByte (op : BitVec 3) (a : BitVec 5) : arg (commandByte op a) = a := by
  revert op a; decide

theorem commandByte_opcode_arg (b : Byte) : commandByte (opcode b) (arg b) = b := by
  revert b; decide

/-- A property of three-bit values holds of all once it holds of the eight. -/
theorem forall_opcode {P : BitVec 3 → Prop} (h0 : P 0b000#3) (h1 : P 0b001#3) (h2 : P 0b010#3)
    (h3 : P 0b011#3) (h4 : P 0b100#3) (h5 : P 0b101#3) (h6 : P 0b110#3) (h7 : P 0b111#3) (op : BitVec 3) :
    P op := by
  have all : ∀ v : BitVec 3, v = 0b000#3 ∨ v = 0b001#3 ∨ v = 0b010#3 ∨ v = 0b011#3 ∨ v = 0b100#3 ∨
      v = 0b101#3 ∨ v = 0b110#3 ∨ v = 0b111#3 := by decide
  obtain h | h | h | h | h | h | h | h := all op <;> subst h <;> assumption

/-- A property of bytes holds of all once it holds of every opcode with every argument. -/
theorem forall_byte {P : Byte → Prop} (h : ∀ op a, P (commandByte op a)) (b : Byte) : P b :=
  commandByte_opcode_arg b ▸ h (opcode b) (arg b)

/-- The two event kinds that carry nothing, the one that carries a byte, and the reserved one. -/
theorem kind_cases (k : BitVec 2) : k = 0b00#2 ∨ k = 0b01#2 ∨ k = 0b10#2 ∨ k = 0b11#2 := by
  revert k; decide

theorem decodeEvent_of_kind_00 {t : Transfer} (h : t.kind = 0b00#2) : decodeEvent t = .ok .en := by
  unfold decodeEvent; rw [h]; rfl

theorem decodeEvent_of_kind_01 {t : Transfer} (h : t.kind = 0b01#2) : decodeEvent t = .ok .dis := by
  unfold decodeEvent; rw [h]; rfl

theorem decodeEvent_of_kind_10 {t : Transfer} (h : t.kind = 0b10#2) :
    decodeEvent t = .ok (.br t.byte t.span) := by
  unfold decodeEvent; rw [h]; rfl

theorem decodeEvent_of_kind_11 {t : Transfer} (h : t.kind = 0b11#2) :
    decodeEvent t = .error .reservedEventKind := by
  unfold decodeEvent; rw [h]; rfl

/-! ## The reset input -/

/-- Every style has a drive of the reset input that asserts it. -/
theorem asserted_activeLevel (style : ResetStyle) :
    ResetPin.asserted style ⟨style.activeLevel, true⟩ = true := by
  unfold ResetPin.asserted; cases style.timing <;> simp

/-- The other level asserts it in no style. -/
theorem not_asserted_otherLevel (style : ResetStyle) (c : Bool) :
    ResetPin.asserted style ⟨!style.activeLevel, c⟩ = false := by
  unfold ResetPin.asserted; cases style.timing <;> simp

/-! ## The frame of a byte -/

theorem byteFrame_span {b : Byte} {p : Span} {f : OutputFrame} (h : byteFrame b p = some f) : f.span = p := by
  unfold byteFrame at h
  cases hm : mapFrame (opcode b) (arg b) with
  | none => simp [hm] at h
  | some r => simp [hm] at h; simp [← h]

theorem mapFrame_shape (op : BitVec 3) (a : BitVec 5) :
    ∀ r, mapFrame op a = some r → r.2.isSome = r.1.hasArg := by
  refine forall_opcode (P := fun op => ∀ r, mapFrame op a = some r → r.2.isSome = r.1.hasArg)
    ?_ ?_ ?_ ?_ ?_ ?_ ?_ ?_ op <;> · rintro r ⟨⟩ <;> rfl

theorem byteFrame_shapeOk {b : Byte} {p : Span} {f : OutputFrame} (h : byteFrame b p = some f) :
    f.shapeOk = true := by
  unfold byteFrame at h
  cases hm : mapFrame (opcode b) (arg b) with
  | none => simp [hm] at h
  | some r =>
    simp [hm] at h
    have := mapFrame_shape _ _ r hm
    simp [← h, OutputFrame.shapeOk, this]

namespace Machine

/-! ## The meanings, by the two shared operations -/

/-- What `commandEffect` can answer. -/
theorem commandEffect_next {o : Option OutputFrame} {s t : State} (h : commandEffect o s = .next t) :
    (s.st = .disabled ∧ t = s) ∨ (s.st = .awaitingOpcode ∧ t = s.emitOption o) := by
  unfold commandEffect at h
  split at h <;> cases h
  · exact .inl ⟨‹_›, rfl⟩
  · exact .inr ⟨‹_›, rfl⟩

/-- What an Enable can answer. -/
theorem execEn_next {s t : State} (h : execEn s = .next t) : t = s.setSt .awaitingOpcode := by
  unfold execEn at h
  split at h <;> cases h
  · rfl
  · next hs => cases s; simp_all [State.setSt]

/-- What a ByteResult can answer. -/
theorem execBr_next {b : Byte} {p : Span} {s t : State} (h : execBr b p s = .next t) :
    (s.st = .disabled ∧ t = s) ∨ (s.st = .awaitingOpcode ∧ t = s.emitOption (byteFrame b p)) := by
  unfold execBr at h
  split at h <;> cases h
  · exact .inl ⟨‹_›, rfl⟩
  · exact .inr ⟨‹_›, rfl⟩

/-- Everything an instruction that answers a next state can have done: a boundary event wrote `st`, and any
other emitted at most one frame, of the right shape and with its own timestamps. -/
theorem exec_next {i : Instr} {s t : State} (h : exec i s = .next t) :
    ((i = .en ∨ i = .dis) ∧ ∃ v, t = s.setSt v) ∨
    (i ≠ .en ∧ i ≠ .dis ∧ ∃ o : Option OutputFrame, t = s.emitOption o ∧
      ∀ f ∈ o, i.span? = some f.span ∧ f.shapeOk = true) := by
  have skip : ∃ o : Option OutputFrame, s = s.emitOption o ∧
      ∀ f ∈ o, i.span? = some f.span ∧ f.shapeOk = true := ⟨none, by simp⟩
  cases i with
  | en => exact .inl ⟨.inl rfl, _, execEn_next h⟩
  | dis => cases h; exact .inl ⟨.inr rfl, _, rfl⟩
  | br b p =>
    refine .inr ⟨by simp, by simp, ?_⟩
    obtain ⟨_, rfl⟩ | ⟨_, rfl⟩ := execBr_next h
    · exact skip
    · exact ⟨_, rfl, fun f hf => ⟨by simp [Instr.span?, byteFrame_span hf], byteFrame_shapeOk hf⟩⟩
  | unrecognized110 x p =>
    refine .inr ⟨by simp, by simp, ?_⟩
    obtain ⟨_, rfl⟩ | ⟨_, rfl⟩ := commandEffect_next h <;> exact ⟨none, by simp⟩
  | _ =>
    refine .inr ⟨by simp, by simp, ?_⟩
    obtain ⟨_, rfl⟩ | ⟨_, rfl⟩ := commandEffect_next h
    · exact skip
    · exact ⟨_, rfl, by simp [Instr.span?, OutputFrame.shapeOk, FrameKind.hasArg]⟩

/-! ## The output port -/

/-- The port loses no frame and keeps the order: what is due, then the rest, is what was pending. -/
theorem dueFrame_append_restPending (ps : List PendingFrame) :
    (dueFrame ps).toList ++ (restPending ps).map PendingFrame.frame = ps.map PendingFrame.frame := by
  have hc : PendingFrame.frame ∘ PendingFrame.countDown = PendingFrame.frame := rfl
  match ps with
  | [] => rfl
  | ⟨0, f⟩ :: rest => simp [dueFrame, restPending, hc]
  | ⟨n + 1, f⟩ :: rest => simp [dueFrame, restPending, hc, PendingFrame.countDown]

/-- Whether the slot counts or not, presented and then pending frames are the same list before and after. -/
theorem drivePort_frames (s : State) (c : Bool) :
    (s.drivePort c).presented ++ (s.drivePort c).pending.map PendingFrame.frame =
      s.presented ++ s.pending.map PendingFrame.frame := by
  cases c
  · simp
  · simp [dueFrame_append_restPending]

/-- The frame on the port is the one the slot added to the presented frames. -/
theorem drivePort_presented (s : State) (c : Bool) :
    (s.drivePort c).presented = s.presented ++ (s.drivePort c).frOut.toList := rfl

/-! ## One step -/

theorem step_of_reset {s : State} (h : s.fetch = .reset) : step s = .next s.consume.assertReset := by
  unfold step; rw [h]

theorem step_of_idle {s : State} (h : s.fetch = .idle) :
    step s = .next (s.consume.drivePort Config.idleSlotsCount) := by
  unfold step; rw [h]

theorem step_of_rejected {s : State} {t : Transfer} {r : DecodeReject} (h : s.fetch = .event t)
    (hd : decodeEvent t = .error r) : step s = .refused (refusalOf r) := by
  unfold step; rw [h]; simp only [hd]

theorem step_of_event {s s' : State} {t : Transfer} {i : Instr} (h : s.fetch = .event t)
    (hd : decodeEvent t = .ok i) (he : exec i s.consume = .next s') : step s = .next (s'.drivePort true) := by
  unfold step; rw [h]; simp only [hd, he]

/-- Everything a step that answers a next state can have done. -/
theorem step_next {s t : State} (h : step s = .next t) :
    (s.fetch = .reset ∧ t = s.consume.assertReset) ∨
    (s.fetch = .idle ∧ t = s.consume.drivePort Config.idleSlotsCount) ∨
    (∃ tr i s', s.fetch = .event tr ∧ decodeEvent tr = .ok i ∧ exec i s.consume = .next s' ∧
      t = s'.drivePort true) := by
  unfold step at h
  split at h
  · cases h; exact .inl ⟨‹_›, rfl⟩
  · cases h; exact .inr (.inl ⟨‹_›, rfl⟩)
  · next tr hf =>
    split at h
    · cases h
    · next i hd =>
      split at h <;> cases h
      exact .inr (.inr ⟨tr, i, _, hf, hd, ‹_›, rfl⟩)

/-- The slot a step fetches is the first of the input. -/
theorem fetch_of_input_cons {s : State} {x : InputSlot} {xs : List InputSlot} (h : s.input = x :: xs) :
    s.fetch = fetchedOf x := by
  unfold State.fetch; rw [h]

theorem fetch_of_input_nil {s : State} (h : s.input = []) : s.fetch = .idle := by
  unfold State.fetch; rw [h]

end Machine

end Sys2Proof
end

