-- ==== Sys2Proof/Laws/PerInstr.lean ====
section
/-! SUPPORT. Laws/PerInstr: the per-instruction families named in LAWS.json. -/

/-- The family RoundTrip: decoding the encoding of an instruction, at its row's format, gives it back with
every operand (30_encoding.md R29 to R33, R38, R42). -/
def Sys2Proof.Laws.RoundTrip.Statement (i : Sys2Proof.Instr) : Prop :=
  Sys2Proof.decodeAs i.format (Sys2Proof.encode i) = some i

namespace Sys2Proof.Laws

/-- The encoding of a command, read back as a command byte. -/
theorem decodeAs_byteTransfer (op : BitVec 3) (a : BitVec 5) (p : Span) :
    decodeAs .commandByte (byteTransfer (commandByte op a) p) = some (decodeCommand (commandByte op a) p) := rfl

theorem RoundTrip.rcr (a : BitVec 5) (p : Span) : RoundTrip.Statement (.rcr a p) := by
  simp [RoundTrip.Statement, Instr.format, encode, decodeAs_byteTransfer, decodeCommand]

theorem RoundTrip.rbm (a : BitVec 5) (p : Span) : RoundTrip.Statement (.rbm a p) := by
  simp [RoundTrip.Statement, Instr.format, encode, decodeAs_byteTransfer, decodeCommand]

theorem RoundTrip.wcr (a : BitVec 5) (p : Span) : RoundTrip.Statement (.wcr a p) := by
  simp [RoundTrip.Statement, Instr.format, encode, decodeAs_byteTransfer, decodeCommand]

theorem RoundTrip.wbm (a : BitVec 5) (p : Span) : RoundTrip.Statement (.wbm a p) := by
  simp [RoundTrip.Statement, Instr.format, encode, decodeAs_byteTransfer, decodeCommand]

theorem RoundTrip.bfs (a : BitVec 5) (p : Span) : RoundTrip.Statement (.bfs a p) := by
  simp [RoundTrip.Statement, Instr.format, encode, decodeAs_byteTransfer, decodeCommand]

theorem RoundTrip.bfc (a : BitVec 5) (p : Span) : RoundTrip.Statement (.bfc a p) := by
  simp [RoundTrip.Statement, Instr.format, encode, decodeAs_byteTransfer, decodeCommand]

theorem RoundTrip.unrecognized110 (a : BitVec 5) (p : Span) : RoundTrip.Statement (.unrecognized110 a p) := by
  simp [RoundTrip.Statement, Instr.format, encode, decodeAs_byteTransfer, decodeCommand]

theorem RoundTrip.src (a : BitVec 5) (p : Span) : RoundTrip.Statement (.src a p) := by
  simp [RoundTrip.Statement, Instr.format, encode, decodeAs_byteTransfer, decodeCommand]

theorem RoundTrip.en : RoundTrip.Statement .en := rfl

theorem RoundTrip.dis : RoundTrip.Statement .dis := rfl

theorem RoundTrip.br (b : Byte) (p : Span) : RoundTrip.Statement (.br b p) := rfl

end Sys2Proof.Laws
end

