-- ==== Sys2Proof/Laws/Run.lean ====
section
/-! SUPPORT. Laws/Run: a run taken one step at a time, and the event-level run cut in two. -/

namespace Sys2Proof.Machine

theorem run_zero (s : State) : Host.Core.run core 0 s = .next s := rfl

theorem run_succ_of_next {k : Nat} {s t : State} (h : step s = .next t) :
    Host.Core.run core (k + 1) s = Host.Core.run core k t := by
  have h' : core.step s = .next t := h
  simp only [Host.Core.run, h']

theorem run_succ_of_refused {k : Nat} {s : State} {r : Refusal} (h : step s = .refused r) :
    Host.Core.run core (k + 1) s = .refused r := by
  have h' : core.step s = .refused r := h
  simp only [Host.Core.run, h']

/-- A run that answers took a first step that answers. -/
theorem run_succ_next {k : Nat} {s t : State} (h : Host.Core.run core (k + 1) s = .next t) :
    ∃ u, step s = .next u ∧ Host.Core.run core k u = .next t := by
  cases hs : step s with
  | next u => exact ⟨u, rfl, run_succ_of_next hs ▸ h⟩
  | fault r => cases r
  | refused r => rw [run_succ_of_refused hs] at h; cases h

/-- A run goes on from where a shorter one ended. -/
theorem run_add {k m : Nat} {s t : State} (h : Host.Core.run core k s = .next t) :
    Host.Core.run core (k + m) s = Host.Core.run core m t := by
  induction k generalizing s with
  | zero => cases h; simp
  | succ k ih =>
    obtain ⟨u, hu, ht⟩ := run_succ_next h
    rw [show k + 1 + m = k + m + 1 by omega, run_succ_of_next hu]
    exact ih ht

end Sys2Proof.Machine

namespace Sys2Proof

theorem eventRun_nil (acc : Machine.DecoderState × List OutputFrame) : eventRun acc [] = acc := rfl

theorem eventRun_cons (acc : Machine.DecoderState × List OutputFrame) (e : InputEvent) (es : List InputEvent) :
    eventRun acc (e :: es) = eventRun (eventStepAppend acc e) es := rfl

theorem eventRun_append (acc : Machine.DecoderState × List OutputFrame) (es es' : List InputEvent) :
    eventRun acc (es ++ es') = eventRun (eventRun acc es) es' := List.foldl_append

end Sys2Proof
end

