-- ==== Sys2Proof/Tests/Slice0.lean ====
section
/-! SUPPORT. Tests/Slice0: small tests whose expected results are the spec's own words, tables and vectors
(30_encoding.md, 41_commands.md, 95_test_vectors.md), and one witness for the hypotheses of each statement. -/

namespace Sys2Proof.Tests

open Sys2Proof.Machine

/-! ## Helpers -/

/-- The timestamps of code 0; a test that tells timestamps apart is stated for all of them. -/
def span0 : Span := ⟨.zero, .zero⟩

/-- A state with the given decoder state and input and nothing else in it. -/
def start (st : DecoderState) (xs : List InputSlot) : State := { State.reset with st := st, input := xs }

/-- A presented transfer of the given kind and byte, with timestamps of code 0. -/
def slot (kind : BitVec 2) (byte : Byte) : InputSlot := .port ⟨true, kind, byte, .zero, .zero⟩

/-- An idle slot, `ev_valid = 0`, whose kind and byte would be a command. -/
def idle : InputSlot := .port ⟨false, 0b10#2, 0x05#8, .zero, .zero⟩

/-- The decoder state and the frames of an outcome; `none` where there is no next state. -/
def look : Host.Outcome State Fault Refusal → Option (DecoderState × List OutputFrame)
  | .next s => some (s.st, s.emitted)
  | .fault _ => none
  | .refused _ => none

/-- The refusal of an outcome. -/
def refusal : Host.Outcome State Fault Refusal → Option Refusal
  | .next _ => none
  | .fault _ => none
  | .refused r => some r

/-! ## WellFormed: 30_encoding.md R38, a timestamp is a value of `TS_W` bits

Which codes above 0 are timestamps is free, so a test names the code and takes the timestamp. -/

theorem test_codeFits_refuses_the_first_code_too_wide : codeFits 8 256 = false ∧ codeFits 8 255 = true := by decide

theorem test_wellFormed_refuses_wide_start_time (h : 256 = 0 ∨ Config.isTimestamp 256 = true) :
    (Instr.rcr 5#5 ⟨⟨256, h⟩, .zero⟩).wellFormed 8 = false := rfl

theorem test_wellFormed_refuses_wide_end_time (h : 256 = 0 ∨ Config.isTimestamp 256 = true) :
    (Instr.br 5#8 ⟨.zero, ⟨256, h⟩⟩).wellFormed 8 = false := rfl

theorem test_wellFormed_accepts_widest_timestamps (h : 255 = 0 ∨ Config.isTimestamp 255 = true) :
    (Instr.src 31#5 ⟨⟨255, h⟩, ⟨255, h⟩⟩).wellFormed 8 = true := rfl

theorem test_wellFormed_enable_carries_no_timestamps : Instr.en.wellFormed 0 = true := by decide

/-! ## Decoding: words written out from 30_encoding.md R29, R33 and R38 -/

theorem test_decode_rcr : decodeCommand 0b00011111#8 span0 = .rcr 31#5 span0 := by decide
theorem test_decode_rbm : decodeCommand 0b00111010#8 span0 = .rbm 26#5 span0 := by decide
theorem test_decode_wcr : decodeCommand 0b01000001#8 span0 = .wcr 1#5 span0 := by decide
theorem test_decode_wbm : decodeCommand 0b01111010#8 span0 = .wbm 26#5 span0 := by decide
theorem test_decode_bfs : decodeCommand 0b10010000#8 span0 = .bfs 16#5 span0 := by decide
theorem test_decode_bfc : decodeCommand 0b10100011#8 span0 = .bfc 3#5 span0 := by decide
theorem test_decode_unrecognized110 :
    decodeCommand 0b11000111#8 span0 = .unrecognized110 7#5 span0 := by decide
theorem test_decode_src : decodeCommand 0b11111111#8 span0 = .src 31#5 span0 := by decide

theorem test_decode_en : decodeAs .inputEventPort ⟨true, 0b00#2, 0xFF#8, .zero, .zero⟩ = some .en := by decide
theorem test_decode_dis : decodeAs .inputEventPort ⟨true, 0b01#2, 0xFF#8, .zero, .zero⟩ = some .dis := by decide
theorem test_decode_br (t0 t1 : TS) :
    decodeAs .inputEventPort ⟨true, 0b10#2, 0x9F#8, t0, t1⟩ = some (.br 0x9F#8 ⟨t0, t1⟩) := rfl
theorem test_decode_reserved_kind_is_no_event :
    decodeAs .inputEventPort ⟨true, 0b11#2, 0x05#8, .zero, .zero⟩ = none := by decide

theorem test_table_word_of_two_bits_is_an_event : decodeTableWord 2 0b01 = some .dis := by decide
theorem test_table_word_of_eight_bits_is_a_byte :
    decodeTableWord 8 0x5F = some (.wcr 31#5 ⟨.zero, .zero⟩) := by decide
theorem test_table_word_wider_than_a_byte_is_refused : decodeTableWord 16 0x100 = none := by decide

/-! ## Events: 95_test_vectors.md section 2 -/

theorem test_E1_enable_opens :
    look (exec .en (start .disabled [])) = some (.awaitingOpcode, []) := by decide
theorem test_E2_repeated_enable :
    look (exec .en (start .awaitingOpcode [])) = some (.awaitingOpcode, []) := by decide
theorem test_E3_disable_while_disabled :
    look (exec .dis (start .disabled [])) = some (.disabled, []) := by decide
theorem test_E4_disable_closes :
    look (exec .dis (start .awaitingOpcode [])) = some (.disabled, []) := by decide
theorem test_E6_src_byte_outside_a_transaction :
    look (step (start .disabled [slot 0b10#2 0xFF#8])) = some (.disabled, []) := by decide
theorem test_E8_zero_byte_is_a_command :
    look (step (start .awaitingOpcode [slot 0b10#2 0x00#8])) =
      some (.awaitingOpcode, [⟨.readControlRegister, some 0#5, span0⟩]) := by decide
theorem test_E9_src_does_not_reset_the_block :
    look (step (start .awaitingOpcode [slot 0b10#2 0xFF#8])) =
      some (.awaitingOpcode, [⟨.systemResetCommand, none, span0⟩]) := by decide
theorem test_E10_unrecognised_byte :
    look (step (start .awaitingOpcode [slot 0b10#2 0xDF#8])) = some (.awaitingOpcode, []) := by decide

/-- M7 and M8: any two timestamps pass through in their places, whatever their order. -/
theorem test_M7_timestamps_pass_through (t0 t1 : TS) :
    look (exec (.br 0x05#8 ⟨t0, t1⟩) (start .awaitingOpcode [])) =
      some (.awaitingOpcode, [⟨.readControlRegister, some 5#5, ⟨t0, t1⟩⟩]) := rfl

/-- M9 and program P4: the reserved kind is refused; with `ev_kind = 10` the same transfer emits. -/
theorem test_M9_reserved_kind_is_refused :
    refusal (step (start .awaitingOpcode [slot 0b11#2 0x05#8])) = some .reservedEventKind := by decide

/-- 30_encoding.md R38: `ev_valid = 0` does nothing. -/
theorem test_idle_slot_does_nothing :
    look (step (start .awaitingOpcode [idle])) = some (.awaitingOpcode, []) := by decide

/-- 70_reset_and_hazards.md R75: reset in a transaction keeps the frames emitted. -/
theorem test_reset_slot_keeps_emitted_frames :
    look (step { start .awaitingOpcode [.reset] with emitted := [⟨.readBufferMemory, none, span0⟩] }) =
      some (.disabled, [⟨.readBufferMemory, none, span0⟩]) := by decide

/-- 00_scope.md R6, `RESET_STYLE`: a low level asserts an active-low reset input and no active-high one. -/
theorem test_reset_polarity :
    ResetPin.asserted ⟨.asynchronous, .activeLow⟩ ⟨false, false⟩ = true ∧
    ResetPin.asserted ⟨.asynchronous, .activeHigh⟩ ⟨false, false⟩ = false := by decide

/-- 00_scope.md R6, `RESET_STYLE`: a synchronous reset input acts only where the clock samples it. -/
theorem test_reset_timing :
    ResetPin.asserted ⟨.synchronous, .activeHigh⟩ ⟨true, false⟩ = false ∧
    ResetPin.asserted ⟨.synchronous, .activeHigh⟩ ⟨true, true⟩ = true := by decide

/-! ## Commands: 95_test_vectors.md section 3 -/

theorem test_rcr : look (exec (.rcr 5#5 span0) (start .awaitingOpcode [])) =
    some (.awaitingOpcode, [⟨.readControlRegister, some 5#5, span0⟩]) := by decide
theorem test_rbm : look (exec (.rbm 26#5 span0) (start .awaitingOpcode [])) =
    some (.awaitingOpcode, [⟨.readBufferMemory, none, span0⟩]) := by decide
theorem test_wcr : look (exec (.wcr 31#5 span0) (start .awaitingOpcode [])) =
    some (.awaitingOpcode, [⟨.writeControlRegister, some 31#5, span0⟩]) := by decide
theorem test_wbm : look (exec (.wbm 26#5 span0) (start .awaitingOpcode [])) =
    some (.awaitingOpcode, [⟨.writeBufferMemory, none, span0⟩]) := by decide
theorem test_bfs : look (exec (.bfs 31#5 span0) (start .awaitingOpcode [])) =
    some (.awaitingOpcode, [⟨.bitFieldSet, some 31#5, span0⟩]) := by decide
theorem test_bfc : look (exec (.bfc 3#5 span0) (start .awaitingOpcode [])) =
    some (.awaitingOpcode, [⟨.bitFieldClear, some 3#5, span0⟩]) := by decide
theorem test_unrecognized110 : look (exec (.unrecognized110 7#5 span0) (start .awaitingOpcode [])) =
    some (.awaitingOpcode, []) := by decide
theorem test_src : look (exec (.src 31#5 span0) (start .awaitingOpcode [])) =
    some (.awaitingOpcode, [⟨.systemResetCommand, none, span0⟩]) := by decide
theorem test_wcr_ignored_while_disabled : look (exec (.wcr 31#5 span0) (start .disabled [])) =
    some (.disabled, []) := by decide

/-! ## The output port: 30_encoding.md R41, 70_reset_and_hazards.md R79 -/

theorem test_signals_of_bfs_31 (t0 t1 : TS) : (OutputFrame.mk .bitFieldSet (some 31#5) ⟨t0, t1⟩).signals =
    ⟨0b100#3, true, 31#5, t0, t1⟩ := rfl
theorem test_signals_of_src (t0 t1 : TS) : (OutputFrame.mk .systemResetCommand none ⟨t0, t1⟩).signals =
    ⟨0b111#3, false, 0#5, t0, t1⟩ := rfl

theorem test_due_frame_waits_its_turn :
    dueFrame [⟨1, ⟨.readBufferMemory, none, span0⟩⟩] = none := by decide
theorem test_due_frame_leaves_and_the_rest_counts_down :
    restPending [⟨0, ⟨.readBufferMemory, none, span0⟩⟩, ⟨2, ⟨.writeBufferMemory, none, span0⟩⟩] =
      [⟨1, ⟨.writeBufferMemory, none, span0⟩⟩] := by decide

theorem test_reset_drives_no_frame : State.reset.frValid = false ∧ State.reset.frameSignals = none := by decide

/-! ## Rendering: 95_test_vectors.md section 3, render vectors -/

theorem test_render_vectors :
    renderArg 0#5 = ['0', 'x', '0'] ∧ renderArg 9#5 = ['0', 'x', '9'] ∧ renderArg 10#5 = ['0', 'x', 'a'] ∧
    renderArg 16#5 = ['0', 'x', '1', '0'] ∧ renderArg 26#5 = ['0', 'x', '1', 'a'] ∧
    renderArg 31#5 = ['0', 'x', '1', 'f'] := by decide

/-! ## Assembly: 30_encoding.md R42 -/

theorem test_assemble_datasheet_spellings :
    assemble (.rbm 0x1A) = some 0x3A#8 ∧ assemble (.wbm 0x1A) = some 0x7A#8 ∧ assemble (.src 0x1F) = some 0xFF#8 ∧
    assemble .rbm = some 0x20#8 ∧ assemble .wbm = some 0x60#8 ∧ assemble .src = some 0xE0#8 := by decide

/-! ## The fetch word -/

theorem test_withFetchWord_enable_runs_first :
    look (step (State.reset.withFetchWord 2 0b00)) = some (.awaitingOpcode, []) := by decide

theorem test_withFetchWord_byte_runs_first :
    look (step ((start .awaitingOpcode []).withFetchWord 8 0x60)) =
      some (.awaitingOpcode, [⟨.writeBufferMemory, none, ⟨.zero, .zero⟩⟩]) := by decide

/-! ## Witnesses: for each statement with hypotheses, a state and operands that meet all of them -/

theorem witness_FrValidStaysZeroUntilAFrameIsEmitted :
    ∃ (k : Nat) (s t : State), s.pending = [] ∧ s.frOut = none ∧ Host.Core.run core k s = .next t ∧
      t.emitted = s.emitted ∧ s.input ≠ [] :=
  ⟨1, start .disabled [slot 0b10#2 0x05#8], _, rfl, rfl, rfl, rfl, by decide⟩

theorem witness_ResetSlotClosesAndDiscardsUnpresented :
    ∃ (s : State) (rest : List InputSlot), s.input = .reset :: rest ∧ s.st = .awaitingOpcode :=
  ⟨start .awaitingOpcode [.reset], [], rfl, rfl⟩

theorem witness_ResetStyleCannotBeSeenAtTheEventLevel :
    ∀ style : ResetStyle, ∃ (pin pin' : ResetPin) (s : State), s.input = [] ∧ pin.asserted style = true ∧
      pin'.asserted style = false ∧ s.st = .awaitingOpcode :=
  fun style => ⟨⟨style.activeLevel, true⟩, ⟨!style.activeLevel, true⟩, start .awaitingOpcode [], rfl,
    asserted_activeLevel style, not_asserted_otherLevel style true, rfl⟩

theorem witness_EnableFromDisabledOpensTransaction :
    (∃ s : State, s.st = .disabled) ∧ (∃ tr : Transfer, tr.kind = 0b00#2 ∧ tr.byte = 0xFF#8) ∧
    ∃ (i : Instr) (s t : State), s.st = .disabled ∧ exec i s = .next t ∧ t.st ≠ .disabled :=
  ⟨⟨State.reset, rfl⟩, ⟨⟨true, 0b00#2, 0xFF#8, .zero, .zero⟩, rfl, rfl⟩, ⟨.en, State.reset, _, rfl, rfl, by decide⟩⟩

theorem witness_EnableWhileAwaitingChangesNothing : ∃ s : State, s.st = .awaitingOpcode :=
  ⟨start .awaitingOpcode [], rfl⟩

theorem witness_DisableClosesFromAnyState : ∃ tr : Transfer, tr.kind = 0b01#2 ∧ tr.byte = 0xFF#8 :=
  ⟨⟨true, 0b01#2, 0xFF#8, .zero, .zero⟩, rfl, rfl⟩

theorem witness_ByteWhileDisabledIsIgnored :
    (∃ s : State, s.st = .disabled) ∧ ∃ tr : Transfer, tr.kind = 0b10#2 ∧ tr.byte = 0xFF#8 :=
  ⟨⟨State.reset, rfl⟩, ⟨⟨true, 0b10#2, 0xFF#8, .zero, .zero⟩, rfl, rfl⟩⟩

theorem witness_ByteWhileAwaitingEmitsMappedFrame : ∃ s : State, s.st = .awaitingOpcode ∧ s.input ≠ [] :=
  ⟨start .awaitingOpcode [slot 0b10#2 0x05#8], rfl, by decide⟩

theorem witness_ArgumentCommandsEmitTheirFrame :
    ∃ s : State, s.st = .awaitingOpcode ∧ (0x1F#8 &&& 0xE0#8 = 0x00#8) ∧ (0x5F#8 &&& 0xE0#8 = 0x40#8) ∧
      (0x9F#8 &&& 0xE0#8 = 0x80#8) ∧ (0xBF#8 &&& 0xE0#8 = 0xA0#8) :=
  ⟨start .awaitingOpcode [], rfl, by decide⟩

theorem witness_NoArgumentCommandsEmitTheirFrame :
    ∃ s : State, s.st = .awaitingOpcode ∧ (0x3F#8 &&& 0xE0#8 = 0x20#8) ∧ (0x7F#8 &&& 0xE0#8 = 0x60#8) ∧
      (0xFF#8 &&& 0xE0#8 = 0xE0#8) :=
  ⟨start .awaitingOpcode [], rfl, by decide⟩

theorem witness_Opcode110IsSkipped : ∃ s : State, s.st = .awaitingOpcode ∧ (0xDF#8 &&& 0xE0#8 = 0xC0#8) :=
  ⟨start .awaitingOpcode [], rfl, by decide⟩

theorem witness_OpcodeMapDecidesEveryByte :
    ∃ r ∈ opcodeMap, ∃ (b : Byte) (s : State), r.lo ≤ b.toNat ∧ b.toNat ≤ r.hi ∧ s.st = .awaitingOpcode :=
  ⟨⟨0xE0, 0xFF, some .systemResetCommand, false⟩, by decide, 0xFF#8, start .awaitingOpcode [], by decide,
    by decide, rfl⟩

theorem witness_CommandHasNoEffectButItsEmission :
    ∃ (i : Instr) (b : Byte) (p : Span) (s t : State), (i = decodeCommand b p ∨ i = .br b p) ∧
      exec i s = .next t ∧ t.emitted ≠ s.emitted :=
  ⟨.src 31#5 span0, 0xFF#8, span0, start .awaitingOpcode [], _, .inl rfl, rfl, by decide⟩

theorem witness_EmittedFrameHasShapeAndTimestamps :
    ∃ (i : Instr) (s t : State) (f : OutputFrame), exec i s = .next t ∧ t.emitted = s.emitted ++ [f] :=
  ⟨.bfc 31#5 span0, start .awaitingOpcode [], _, ⟨.bitFieldClear, some 31#5, span0⟩, rfl, rfl⟩

theorem witness_MapperIsInjectiveOnRecognisedOpcodes :
    ∃ (op op' : BitVec 3) (a a' : BitVec 5) (k : FrameKind) (oa oa' : Option (BitVec 5)),
      mapFrame op a = some (k, oa) ∧ mapFrame op' a' = some (k, oa') ∧ a ≠ a' :=
  ⟨0b000#3, 0b000#3, 0#5, 31#5, .readControlRegister, some 0#5, some 31#5, rfl, rfl, by decide⟩

theorem witness_EveryByteIsLegalAndLowBitsAreArgumentOrNothing :
    (∃ b b' : Byte, b ≠ b' ∧ opcode b = opcode b' ∧ opcode b ∈ [0b001#3, 0b011#3, 0b110#3, 0b111#3]) ∧
    (∃ (b : Byte) (s : State), s.st = .awaitingOpcode ∧ opcode b ∈ [0b001#3, 0b011#3, 0b111#3]) ∧
    (∃ (b : Byte) (s : State), s.st = .awaitingOpcode ∧ opcode b ∈ [0b000#3, 0b010#3, 0b100#3, 0b101#3]) :=
  ⟨⟨0xC0#8, 0xDF#8, by decide⟩, ⟨0xFF#8, start .awaitingOpcode [], rfl, by decide⟩,
    ⟨0xBF#8, start .awaitingOpcode [], rfl, by decide⟩⟩

theorem witness_EachByteIsDecodedOnItsOwn :
    ∃ (b b' : Byte) (p _p' : Span) (s t : State), exec (.br b p) s = .next t ∧ t.emitted ≠ s.emitted ∧
      b ≠ b' :=
  ⟨0x40#8, 0x01#8, span0, span0, start .awaitingOpcode [], _, rfl, by decide, by decide⟩

theorem witness_OnlyTheStateRegisterIsKept : ∃ s s' : State, s.st = s'.st ∧ s ≠ s' :=
  ⟨start .awaitingOpcode [], start .awaitingOpcode [idle], rfl, by decide⟩

theorem witness_BoundariesAreIdempotentAndBytesAreNot :
    (∃ (i : Instr) (s t : State), (i = .en ∨ i = .dis) ∧ exec i s = .next t ∧ t ≠ s) ∧
    ∃ (b : Byte) (p : Span) (s t : State) (f : OutputFrame), exec (.br b p) s = .next t ∧
      t.emitted = s.emitted ++ [f] :=
  ⟨⟨.en, State.reset, _, .inl rfl, rfl, by decide⟩,
    ⟨0x05#8, span0, start .awaitingOpcode [], _, ⟨.readControlRegister, some 5#5, span0⟩, rfl, rfl⟩⟩

theorem witness_OnlyTheReservedKindStopsAStep :
    (∃ s : State, s.input.head?.all (fun x => !x.reserved) = true ∧ s.input ≠ []) ∧
    ∃ s : State, s.input.head?.all (fun x => !x.reserved) = false :=
  ⟨⟨start .disabled [slot 0b10#2 0xC0#8], by decide⟩, ⟨start .disabled [slot 0b11#2 0xC0#8], by decide⟩⟩

theorem witness_ReservedKindIsRefusedForTheWholeRun :
    ∃ (k : Nat) (s t : State) (tr : Transfer) (rest : List InputSlot),
      Host.Core.run core k s = .next t ∧ t.input = .port tr :: rest ∧ tr.valid = true ∧ tr.kind = 0b11#2 ∧
        0 < k :=
  ⟨1, start .disabled [slot 0b00#2 0x00#8, slot 0b11#2 0x05#8], _, ⟨true, 0b11#2, 0x05#8, .zero, .zero⟩, [],
    rfl, rfl, rfl, rfl, by decide⟩

theorem witness_RunUnderTheDutyNeverStops : ∃ s : State, DutyKept s ∧ s.input ≠ [] :=
  ⟨start .disabled [slot 0b00#2 0x00#8, idle, .reset], by unfold DutyKept; decide, by decide⟩

theorem witness_WiderStateRegisterIsRefusedOutsideTwoCodes :
    (0#1).toNat = 0 ∧ (1#1).toNat = 1 ∧ 2 ≤ (2#2).toNat := by decide

theorem witness_EncodeOfDecodeIsTheTransfer :
    ∃ (tr : Transfer) (i : Instr), tr.valid = true ∧ decodeEvent tr = .ok i ∧ tr.kind = 0b10#2 :=
  ⟨⟨true, 0b10#2, 0xFF#8, .zero, .zero⟩, _, rfl, rfl, rfl⟩

theorem witness_SpellingsAssembleToTheirBytes :
    (31 < 32 ∧ 32 ≤ 32) ∧ ∃ (x : Spelling) (b : Byte), assemble x = some b ∧ opcode b = 0b110#3 :=
  ⟨by decide, .byte 0xDF, 0xDF#8, by decide, by decide⟩

theorem witness_UnreadSignalsHaveNoEffectOnAStep :
    (∃ a b : Transfer, a.valid = b.valid ∧ a.valid = true ∧ a.kind = b.kind ∧ a.kind ≠ 0b10#2 ∧ a ≠ b) ∧
    ∃ a b : Transfer, a.valid = b.valid ∧ a.valid = false ∧ a.kind ≠ b.kind :=
  ⟨⟨⟨true, 0b01#2, 0x00#8, .zero, .zero⟩, ⟨true, 0b01#2, 0xFF#8, .zero, .zero⟩, by decide⟩,
    ⟨⟨false, 0b11#2, 0x00#8, .zero, .zero⟩, ⟨false, 0b00#2, 0xFF#8, .zero, .zero⟩, by decide⟩⟩

theorem witness_StepRunsTheDecodedEvent :
    (∃ (s t : State) (tr : Transfer) (rest : List InputSlot) (i : Instr), s.input = .port tr :: rest ∧
      tr.valid = true ∧ decodeEvent tr = .ok i ∧ exec i { s with input := rest } = .next t) ∧
    (∃ (s : State) (tr : Transfer) (rest : List InputSlot), s.input = .port tr :: rest ∧ tr.valid = false) ∧
    ∃ s : State, s.input = [] :=
  ⟨⟨start .awaitingOpcode [slot 0b10#2 0x05#8], _, ⟨true, 0b10#2, 0x05#8, .zero, .zero⟩, [], _, rfl, rfl, rfl, rfl⟩,
    ⟨start .awaitingOpcode [idle], ⟨false, 0b10#2, 0x05#8, .zero, .zero⟩, [], rfl, rfl⟩, ⟨State.reset, rfl⟩⟩

theorem witness_RunIsTheFoldOfTheEventStep :
    ∃ (xs rest : List InputSlot) (s : State), (∀ x ∈ xs, x.reserved = false) ∧ s.input = xs ++ rest ∧
      xs.length = 3 ∧ rest ≠ [] :=
  ⟨[slot 0b00#2 0x00#8, slot 0b10#2 0x05#8, .reset], [idle],
    start .disabled [slot 0b00#2 0x00#8, slot 0b10#2 0x05#8, .reset, idle], by decide, rfl, rfl, by decide⟩

theorem witness_RunEmitsOneFramePerQualifyingByte :
    ∃ (xs rest : List InputSlot) (s : State), (∀ x ∈ xs, x.reserved = false) ∧ s.input = xs ++ rest ∧
      framesOwed s.st (xs.flatMap InputSlot.events) = 1 :=
  ⟨[slot 0b10#2 0x05#8, slot 0b10#2 0xC0#8], [], start .awaitingOpcode [slot 0b10#2 0x05#8, slot 0b10#2 0xC0#8],
    by decide, rfl, by decide⟩

theorem witness_DisableForgetsTheTransaction :
    ∃ (x : InputSlot) (xs rest rest' : List InputSlot) (s s' : State), x.events = [.disable] ∧
      (∀ y ∈ xs, y.reserved = false) ∧ s.input = x :: xs ++ rest ∧ s'.input = x :: xs ++ rest' ∧ s.st ≠ s'.st :=
  ⟨slot 0b01#2 0x00#8, [slot 0b00#2 0x00#8], [], [idle], start .awaitingOpcode [slot 0b01#2 0x00#8, slot 0b00#2 0x00#8],
    start .disabled [slot 0b01#2 0x00#8, slot 0b00#2 0x00#8, idle], by decide, by decide, rfl, rfl, by decide⟩

theorem witness_OnlyBoundariesMoveTheStateRegister :
    (∃ s t : State, step s = .next t ∧ t.st ≠ s.st ∧ s.st = .disabled) ∧
    ∃ s t : State, step s = .next t ∧ t.st ≠ s.st ∧ s.st = .awaitingOpcode :=
  ⟨⟨start .disabled [slot 0b00#2 0x00#8], _, rfl, by decide, rfl⟩, ⟨start .awaitingOpcode [.reset], _, rfl, by decide, rfl⟩⟩

theorem witness_FramePortShowsTheEmittedFrame :
    ∃ (b : Byte) (p : Span) (s t : State) (f : OutputFrame), exec (.br b p) s = .next t ∧
      t.emitted = s.emitted ++ [f] ∧ f.arg = none ∧ b.extractLsb' 0 5 ≠ 0#5 :=
  ⟨0xFF#8, span0, start .awaitingOpcode [], _, ⟨.systemResetCommand, none, span0⟩, rfl, rfl, rfl, by decide⟩

theorem witness_EmittedFramesJoinThePortQueue :
    ∃ (i : Instr) (s t : State), exec i s = .next t ∧ t.emitted ≠ s.emitted :=
  ⟨.rcr 0#5 span0, start .awaitingOpcode [], _, rfl, by decide⟩

theorem witness_PortPresentsInOrderExactlyOnce :
    ∃ s t : State, step s = .next t ∧ s.input.head? ≠ some .reset ∧ t.emitted ≠ s.emitted :=
  ⟨start .awaitingOpcode [slot 0b10#2 0x05#8], _, rfl, by decide, by decide⟩

/-- A state that meets the invariant with whatever `LATENCY` is, and that has a byte and `LATENCY` further
events to come. -/
theorem witness_FrameIsPresentedAfterLatency :
    ∃ (tsW : Nat) (s : State) (tr : Transfer) (xs rest : List InputSlot) (f : OutputFrame), Inv tsW s ∧
      s.st = .awaitingOpcode ∧ s.input = .port tr :: xs ++ rest ∧ tr.valid = true ∧ tr.kind = 0b10#2 ∧
      byteFrame tr.byte tr.span = some f ∧ xs.length = Config.latency ∧
      (∀ x ∈ xs, x.presentsEvent = true) := by
  refine ⟨8, start .awaitingOpcode (slot 0b10#2 0x05#8 :: List.replicate Config.latency (slot 0b00#2 0x00#8)), _,
    List.replicate Config.latency (slot 0b00#2 0x00#8), [], _, ⟨by simp [start], by simp [start], ?_, by simp [start],
      by simp [start], by simp [start]⟩, rfl, by simp [start]; rfl, rfl, rfl, rfl, by simp, ?_⟩
  · intro x hx
    rcases List.mem_cons.1 hx with rfl | hx
    · decide
    · rw [List.eq_of_mem_replicate hx]; decide
  · intro x hx
    rw [List.eq_of_mem_replicate hx]; decide

theorem witness_EveryStepKeepsTheInvariant :
    ∃ (tsW : Nat) (s t : State), Inv tsW s ∧ step s = .next t ∧ t.emitted ≠ s.emitted :=
  ⟨8, start .awaitingOpcode [slot 0b10#2 0x05#8], _,
    ⟨by simp [start], by simp [start], by decide, by simp [start], by simp [start], by simp [start]⟩, rfl, by decide⟩

theorem witness_ResetMeetsTheInvariant :
    ∃ (tsW : Nat) (xs : List InputSlot), (∀ x ∈ xs, x.fits tsW = true) ∧ xs ≠ [] :=
  ⟨2, [slot 0b10#2 0x05#8], by decide, by decide⟩

end Sys2Proof.Tests
end

section
/-! SUPPORT. Proofs of the family 10_state.md: the reset value (R19), and the decoder state register as all
that an event leaves behind (R18). -/

namespace Sys2Proof.Machine

/-- The decoder state register alone decides what `f` does: for each value of it there is one new value and
one optional frame, the same for every state that holds it. -/
def DecidedBySt (f : State → Host.Outcome State Fault Refusal) : Prop :=
  ∀ v, ∃ (v' : DecoderState) (o : Option OutputFrame), ∀ s : State, s.st = v →
    f s = .next ((s.setSt v').emitOption o)

theorem setSt_of_st_eq {s : State} {v : DecoderState} (h : s.st = v) : s.setSt v = s := by
  subst h; rfl

theorem commandEffect_of_disabled {s : State} (o : Option OutputFrame) (h : s.st = .disabled) :
    commandEffect o s = .next s := by
  simp only [commandEffect, h]

theorem commandEffect_of_awaitingOpcode {s : State} (o : Option OutputFrame) (h : s.st = .awaitingOpcode) :
    commandEffect o s = .next (s.emitOption o) := by
  simp only [commandEffect, h]

/-- A ByteResult passes the same gate as a command, with its byte's frame. -/
theorem exec_br_eq_commandEffect (b : Byte) (p : Span) : exec (.br b p) = commandEffect (byteFrame b p) := rfl

/-- An Enable ends in `AwaitingOpcode` from either value of `st`: where it changes nothing, `st` has that
value already. -/
theorem execEn_eq (s : State) : execEn s = .next (s.setSt .awaitingOpcode) := by
  cases h : s.st with
  | disabled => simp only [execEn, h]
  | awaitingOpcode => simp only [execEn, h, setSt_of_st_eq h]

theorem commandEffect_decidedBySt (o : Option OutputFrame) : DecidedBySt (commandEffect o)
  | .disabled => ⟨.disabled, none, fun s h => by
      rw [commandEffect_of_disabled o h, setSt_of_st_eq h, emitOption_none]⟩
  | .awaitingOpcode => ⟨.awaitingOpcode, o, fun s h => by
      rw [commandEffect_of_awaitingOpcode o h, setSt_of_st_eq h]⟩

theorem exec_decidedBySt (i : Instr) : DecidedBySt (exec i) := by
  cases i with
  | en => exact fun _ => ⟨.awaitingOpcode, none, fun s _ => execEn_eq s⟩
  | dis => exact fun _ => ⟨.disabled, none, fun _ _ => rfl⟩
  | br b p => rw [exec_br_eq_commandEffect]; exact commandEffect_decidedBySt (byteFrame b p)
  | rcr | rbm | wcr | wbm | bfs | bfc | unrecognized110 | src => exact commandEffect_decidedBySt _

/-- Settles O19: the new `st` and the frame are those that the common value of `st` decides. -/
theorem onlyTheStateRegisterIsKept : Obligations.OnlyTheStateRegisterIsKept := by
  intro i s s' hst
  obtain ⟨v, o, hexec⟩ := exec_decidedBySt i s.st
  exact ⟨_, _, o, hexec s rfl, hexec s' hst.symm, by simp, by simp, by simp⟩

/-- Settles O1, by the two reset values. -/
theorem resetLeavesDisabledAndEmptyStream : Obligations.ResetLeavesDisabledAndEmptyStream :=
  ⟨reset_st, reset_emitted⟩

end Sys2Proof.Machine
end

section
/-! SUPPORT. Proofs of the family 30_encoding.md: the two fields of a command byte (R30, R31), the opcode map
(R33), which bytes carry an argument (R32, R35), bytes decoded one by one (R36), and the shape of an emitted
frame (R40, R62). -/

namespace Sys2Proof

/-! ## The fields as numbers -/

theorem opcode_toNat (b : Byte) : (opcode b).toNat = b.toNat / 32 := by
  have hlt := b.isLt
  rw [opcode, BitVec.extractLsb'_toNat, Nat.shiftRight_eq_div_pow]
  omega

theorem arg_toNat (b : Byte) : (arg b).toNat = b.toNat % 32 := by
  rw [arg, BitVec.extractLsb'_toNat, Nat.shiftRight_zero]

/-! ## The rows of the opcode map, by opcode -/

/-- The row of R33 for an opcode: the map lists its rows in the order of their opcodes. -/
def opcodeRow (op : BitVec 3) : OpcodeRow := opcodeMap[op.toNat]'op.isLt

theorem mem_opcodeMap_iff {r : OpcodeRow} : r ∈ opcodeMap ↔ ∃ op, opcodeRow op = r := by
  rw [List.mem_iff_getElem]
  constructor
  · rintro ⟨n, hn, rfl⟩
    exact ⟨BitVec.ofNatLT n hn, rfl⟩
  · rintro ⟨op, rfl⟩
    exact ⟨op.toNat, op.isLt, rfl⟩

theorem opcodeRow_lo (op : BitVec 3) : (opcodeRow op).lo = 32 * op.toNat := by
  revert op; decide

theorem opcodeRow_hi (op : BitVec 3) : (opcodeRow op).hi = 32 * op.toNat + 31 := by
  revert op; decide

/-- A row's range holds exactly the bytes of its opcode. -/
theorem mem_range_opcodeRow_iff {op : BitVec 3} {b : Byte} :
    (opcodeRow op).lo ≤ b.toNat ∧ b.toNat ≤ (opcodeRow op).hi ↔ opcode b = op := by
  rw [← BitVec.toNat_inj, opcode_toNat, opcodeRow_lo, opcodeRow_hi]
  omega

/-- The frame mapper and the opcode map agree on each opcode's frame and on whether it carries an argument. -/
theorem mapFrame_eq_opcodeRow (op : BitVec 3) (a : BitVec 5) :
    mapFrame op a =
      (opcodeRow op).frame.map fun k => (k, if (opcodeRow op).carriesArg then some a else none) :=
  forall_opcode (P := fun op => mapFrame op a =
      (opcodeRow op).frame.map fun k => (k, if (opcodeRow op).carriesArg then some a else none))
    rfl rfl rfl rfl rfl rfl rfl rfl op

/-- The argument of a byte is its offset in the range of its opcode's row. -/
theorem ofNat_sub_lo_eq_arg (b : Byte) : BitVec.ofNat 5 (b.toNat - (opcodeRow (opcode b)).lo) = arg b := by
  rw [← BitVec.toNat_inj, BitVec.toNat_ofNat, arg_toNat, opcodeRow_lo, opcode_toNat]
  omega

theorem byteFrame_eq_frameFor (b : Byte) (p : Span) :
    byteFrame b p = (opcodeRow (opcode b)).frameFor b p := by
  rw [byteFrame, OpcodeRow.frameFor, mapFrame_eq_opcodeRow, ofNat_sub_lo_eq_arg, Option.map_map]
  rfl

/-! ## Which opcodes carry an argument -/

theorem mapFrame_congr_arg {op : BitVec 3} (h : op ∈ [0b001#3, 0b011#3, 0b110#3, 0b111#3])
    (a a' : BitVec 5) : mapFrame op a = mapFrame op a' := by
  simp only [List.mem_cons, List.not_mem_nil, or_false] at h
  obtain rfl | rfl | rfl | rfl := h <;> rfl

theorem mapFrame_of_noArg {op : BitVec 3} (h : op ∈ [0b001#3, 0b011#3, 0b111#3]) (a : BitVec 5) :
    ∃ k, mapFrame op a = some (k, none) := by
  simp only [List.mem_cons, List.not_mem_nil, or_false] at h
  obtain rfl | rfl | rfl := h <;> exact ⟨_, rfl⟩

theorem mapFrame_of_hasArg {op : BitVec 3} (h : op ∈ [0b000#3, 0b010#3, 0b100#3, 0b101#3])
    (a : BitVec 5) : ∃ k, mapFrame op a = some (k, some a) := by
  simp only [List.mem_cons, List.not_mem_nil, or_false] at h
  obtain rfl | rfl | rfl | rfl := h <;> exact ⟨_, rfl⟩

theorem byteFrame_of_mapFrame {b : Byte} {k : FrameKind} {oa : Option (BitVec 5)}
    (h : mapFrame (opcode b) (arg b) = some (k, oa)) (p : Span) : byteFrame b p = some ⟨k, oa, p⟩ := by
  rw [byteFrame, h]; rfl

/-! ## The shape of a frame -/

theorem FrameKind.hasArg_iff (k : FrameKind) :
    k.hasArg = true ↔ k = .readControlRegister ∨ k = .writeControlRegister ∨
      k = .bitFieldSet ∨ k = .bitFieldClear := by
  cases k <;> simp [FrameKind.hasArg]

/-- A frame of the right shape has an argument iff its kind is one of R40's four. -/
theorem OutputFrame.arg_isSome_iff_of_shapeOk {f : OutputFrame} (h : f.shapeOk = true) :
    f.arg.isSome = true ↔ f.kind = .readControlRegister ∨ f.kind = .writeControlRegister ∨
      f.kind = .bitFieldSet ∨ f.kind = .bitFieldClear := by
  have hshape : f.arg.isSome = f.kind.hasArg := eq_of_beq h
  rw [hshape, FrameKind.hasArg_iff]

namespace Machine

/-! ## What a ByteResult does, in the terms of the statements -/

theorem emitsOrSkips_emitOption (s : State) (o : Option OutputFrame) :
    EmitsOrSkips s o (s.emitOption o) := by
  cases o with
  | none => rfl
  | some f => exact ⟨rfl, rfl, rfl, rfl, rfl⟩

theorem exec_br_emitsOrSkips (b : Byte) (p : Span) {s : State} (h : s.st = .awaitingOpcode) :
    ∃ t, exec (.br b p) s = .next t ∧ EmitsOrSkips s (byteFrame b p) t :=
  ⟨_, commandEffect_of_awaitingOpcode _ h, emitsOrSkips_emitOption s _⟩

/-- A byte that the mapper gives a frame emits that frame. -/
theorem exec_br_emits_of_mapFrame {b : Byte} {k : FrameKind} {oa : Option (BitVec 5)} {s : State}
    (hmap : mapFrame (opcode b) (arg b) = some (k, oa)) (p : Span) (h : s.st = .awaitingOpcode) :
    ∃ t, exec (.br b p) s = .next t ∧ Emits s ⟨k, oa, p⟩ t := by
  have hbr := exec_br_emitsOrSkips b p h
  rwa [byteFrame_of_mapFrame hmap p] at hbr

theorem exec_br_answers (b : Byte) (p : Span) (s : State) : ∃ t, exec (.br b p) s = .next t := by
  obtain ⟨_, _, hexec⟩ := exec_decidedBySt (.br b p) s.st
  exact ⟨_, hexec s rfl⟩

theorem exec_br_keeps_st {b : Byte} {p : Span} {s t : State} (h : exec (.br b p) s = .next t) :
    t.st = s.st := by
  obtain ⟨_, rfl⟩ | ⟨_, rfl⟩ := execBr_next h
  · rfl
  · exact emitOption_st s _

/-! ## The obligations -/

/-- Settles O12: a row's range holds the bytes of its opcode, and the mapper gives the row's frame. -/
theorem opcodeMapDecidesEveryByte : Obligations.OpcodeMapDecidesEveryByte := by
  constructor
  · intro b
    refine ⟨opcodeRow (opcode b), mem_opcodeMap_iff.2 ⟨_, rfl⟩, mem_range_opcodeRow_iff.2 rfl, ?_⟩
    intro r' hr' hlo hhi
    obtain ⟨op, rfl⟩ := mem_opcodeMap_iff.1 hr'
    rw [mem_range_opcodeRow_iff.1 ⟨hlo, hhi⟩]
  · intro r hr b p s hlo hhi hst
    obtain ⟨op, rfl⟩ := mem_opcodeMap_iff.1 hr
    obtain rfl := mem_range_opcodeRow_iff.1 ⟨hlo, hhi⟩
    rw [← byteFrame_eq_frameFor]
    exact exec_br_emitsOrSkips b p hst

/-- Settles O14: a boundary event adds no frame, and what another instruction adds has the shape and the
timestamps that `exec_next` gives. -/
theorem emittedFrameHasShapeAndTimestamps : Obligations.EmittedFrameHasShapeAndTimestamps := by
  intro i s t f hexec hemit
  obtain ⟨_, v, rfl⟩ | ⟨_, _, o, rfl, hframe⟩ := exec_next hexec
  · simp at hemit
  · have ho : o = some f := by
      rw [emitOption_emitted, List.append_cancel_left_eq] at hemit
      exact Option.toList_eq_singleton_iff.1 hemit
    obtain ⟨hspan, hshape⟩ := hframe f ho
    exact ⟨OutputFrame.arg_isSome_iff_of_shapeOk hshape, hspan⟩

/-- Settles O17, by what the mapper does with the argument under each opcode. -/
theorem everyByteIsLegalAndLowBitsAreArgumentOrNothing :
    Obligations.EveryByteIsLegalAndLowBitsAreArgumentOrNothing := by
  refine ⟨exec_br_answers, ?_, ?_, ?_⟩
  · intro b b' p s hop hmem
    have hframe : byteFrame b p = byteFrame b' p := by
      rw [byteFrame, byteFrame, ← hop, mapFrame_congr_arg hmem (arg b) (arg b')]
    rw [exec_br_eq_commandEffect, exec_br_eq_commandEffect, hframe]
  · intro b p s hst hmem
    obtain ⟨k, hmap⟩ := mapFrame_of_noArg hmem (arg b)
    obtain ⟨t, hexec, hemits⟩ := exec_br_emits_of_mapFrame hmap p hst
    exact ⟨t, _, hexec, hemits, rfl⟩
  · intro b p s hst hmem
    obtain ⟨k, hmap⟩ := mapFrame_of_hasArg hmem (arg b)
    obtain ⟨t, hexec, hemits⟩ := exec_br_emits_of_mapFrame hmap p hst
    exact ⟨t, _, hexec, hemits, rfl⟩

/-- Settles O18: the first byte keeps `st`, and `st` is all that the second one's outcome depends on. -/
theorem eachByteIsDecodedOnItsOwn : Obligations.EachByteIsDecodedOnItsOwn := by
  intro b b' p p' s t hexec
  obtain ⟨u, u', o, hu, hu', hst, hemit, hemit'⟩ :=
    onlyTheStateRegisterIsKept (.br b' p') t s (exec_br_keeps_st hexec)
  exact ⟨u, u', o.toList, hu, hu', hst, hemit, hemit'⟩

/-- Settles O16: a mask of ones is a remainder by a power of two. -/
theorem fieldsAreShiftAndMask : Obligations.FieldsAreShiftAndMask := by
  intro b
  refine ⟨?_, ?_, Nat.le_of_lt_succ (arg b).isLt⟩
  · rw [opcode, BitVec.extractLsb'_toNat]
    exact (Nat.and_two_pow_sub_one_eq_mod _ 3).symm
  · rw [arg_toNat]
    exact (Nat.and_two_pow_sub_one_eq_mod _ 5).symm

end Machine

end Sys2Proof
end

section
/-! SUPPORT. Proofs of the family 40_transaction_events.md: Enable (R43), Disable (R45), and a ByteResult while
`Disabled` (R46) and while `AwaitingOpcode` (R47). -/

namespace Sys2Proof.Machine

/-! ## What the events and the command bytes do -/

theorem exec_en_eq (s : State) : exec .en s = .next (s.setSt .awaitingOpcode) := execEn_eq s

theorem exec_dis_eq (s : State) : exec .dis s = .next (s.setSt .disabled) := rfl

/-- The command a byte stands for passes the same gate as the ByteResult, with the same frame: opcode by
opcode, the command's own rule names the frame that the mapper gives. -/
theorem exec_decodeCommand_eq_commandEffect (b : Byte) (p : Span) :
    exec (decodeCommand b p) = commandEffect (byteFrame b p) := by
  unfold decodeCommand byteFrame
  generalize opcode b = op
  revert op
  exact forall_opcode rfl rfl rfl rfl rfl rfl rfl rfl

/-- Only a boundary event writes `st`. -/
theorem exec_next_st_eq_of_ne_boundary {i : Instr} {s t : State} (h : exec i s = .next t)
    (hen : i ≠ .en) (hdis : i ≠ .dis) : t.st = s.st := by
  obtain ⟨hboundary, _⟩ | ⟨_, _, o, rfl, _⟩ := exec_next h
  · exact absurd hboundary (not_or.2 ⟨hen, hdis⟩)
  · exact emitOption_st s o

/-! ## The obligations -/

/-- Settles O4: of the instructions that are no Enable, a Disable ends in `Disabled` and the others keep `st`. -/
theorem enableFromDisabledOpensTransaction : Obligations.EnableFromDisabledOpensTransaction := by
  refine ⟨fun s _ => exec_en_eq s, fun _ => decodeEvent_of_kind_00, ?_⟩
  intro i s t hst hexec hleaves
  by_contra hen
  by_cases hdis : i = .dis
  · rw [hdis, exec_dis_eq] at hexec
    cases hexec
    exact hleaves (setSt_st s .disabled)
  · exact hleaves ((exec_next_st_eq_of_ne_boundary hexec hen hdis).trans hst)

/-- Settles O6, by the meaning of a Disable and the decoding of `ev_kind = 01`. -/
theorem disableClosesFromAnyState : Obligations.DisableClosesFromAnyState :=
  ⟨exec_dis_eq, fun _ => decodeEvent_of_kind_01⟩

/-- Settles O7: the ByteResult and its byte's command pass one gate, which `Disabled` closes. -/
theorem byteWhileDisabledIsIgnored : Obligations.ByteWhileDisabledIsIgnored := by
  refine ⟨fun b p s hst => ?_, fun _ => decodeEvent_of_kind_10⟩
  rw [exec_br_eq_commandEffect, exec_decodeCommand_eq_commandEffect]
  have hskip := commandEffect_of_disabled (byteFrame b p) hst
  exact ⟨hskip, hskip⟩

/-- Settles O8: the frame the statement writes out from the mapper is the byte's frame. -/
theorem byteWhileAwaitingEmitsMappedFrame : Obligations.ByteWhileAwaitingEmitsMappedFrame :=
  fun b t0 t1 _ hst => ⟨decodeEvent_of_kind_10 rfl, exec_br_emitsOrSkips b ⟨t0, t1⟩ hst⟩

end Sys2Proof.Machine
end

section
/-! SUPPORT. Proofs of the family 41_commands.md: the rules of the eight opcodes (R53 to R60), all of them
instances of one lemma about an opcode and its instruction, and a command's one effect (R61). -/

namespace Sys2Proof

/-! ## The opcode under the mask, and a byte back from its command -/

theorem commandByte_and_mask (op : BitVec 3) (a : BitVec 5) :
    commandByte op a &&& 0xE0#8 = commandByte op 0#5 := by
  revert op a; decide

/-- The mask `0xE0` leaves exactly the opcode's bits. -/
theorem and_mask_eq_iff_opcode_eq {b : Byte} {op : BitVec 3} :
    b &&& 0xE0#8 = commandByte op 0#5 ↔ opcode b = op := by
  have hmask : b &&& 0xE0#8 = commandByte (opcode b) 0#5 := by
    rw [← commandByte_and_mask (opcode b) (arg b), commandByte_opcode_arg]
  constructor
  · intro h
    simpa using congrArg opcode (hmask.symm.trans h)
  · rintro rfl
    exact hmask

/-- A byte's command is presented by the ByteResult that delivers the byte. -/
theorem encode_decodeCommand (b : Byte) (p : Span) : encode (decodeCommand b p) = byteTransfer b p := by
  have hfields : encode (decodeCommand b p) = byteTransfer (commandByte (opcode b) (arg b)) p := by
    unfold decodeCommand
    generalize opcode b = op
    revert op
    exact forall_opcode rfl rfl rfl rfl rfl rfl rfl rfl
  rw [hfields, commandByte_opcode_arg]

theorem decodeCommand_injective (p : Span) : Function.Injective fun b => decodeCommand b p := by
  intro b b' h
  have htransfer : byteTransfer b p = byteTransfer b' p := by
    rw [← encode_decodeCommand, ← encode_decodeCommand]
    exact congrArg encode h
  exact congrArg Transfer.byte htransfer

/-- Where `mk` makes the commands of the bytes of opcode `op`, no byte of another opcode decodes to one. -/
theorem decodeCommand_eq_iff_opcode_eq {op : BitVec 3} {mk : BitVec 5 → Span → Instr}
    (hmk : ∀ a p, decodeCommand (commandByte op a) p = mk a p) (b : Byte) (p : Span) :
    decodeCommand b p = mk (arg b) p ↔ opcode b = op := by
  constructor
  · intro h
    have hbyte : b = commandByte op (arg b) := decodeCommand_injective p (h.trans (hmk _ p).symm)
    rw [hbyte, opcode_commandByte]
  · rintro rfl
    rw [← hmk, commandByte_opcode_arg]

namespace Machine

/-! ## The template of an opcode's rule -/

/-- The command of a byte emits the frame that the mapper gives for the byte's two fields. -/
theorem exec_decodeCommand_commandByte_emitsOrSkips (op : BitVec 3) (a : BitVec 5) (p : Span) {s : State}
    (h : s.st = .awaitingOpcode) :
    ∃ t, exec (decodeCommand (commandByte op a) p) s = .next t ∧
      EmitsOrSkips s ((mapFrame op a).map fun r => { kind := r.1, arg := r.2, span := p }) t := by
  have hframe : byteFrame (commandByte op a) p =
      (mapFrame op a).map fun r => { kind := r.1, arg := r.2, span := p } := by
    rw [byteFrame, opcode_commandByte, arg_commandByte]
  rw [exec_decodeCommand_eq_commandEffect, hframe]
  exact ⟨_, commandEffect_of_awaitingOpcode _ h, emitsOrSkips_emitOption s _⟩

/-- The rule of every opcode: the instruction that its bytes decode to, and the mapper's row for it. -/
theorem commandRule_of_decodeCommand (op : BitVec 3) {mk : BitVec 5 → Span → Instr}
    (hmk : ∀ a p, decodeCommand (commandByte op a) p = mk a p) :
    CommandRule (commandByte op 0#5) mk (mapFrame op) := by
  intro s p hst
  constructor
  · intro a
    rw [← hmk]
    exact exec_decodeCommand_commandByte_emitsOrSkips op a p hst
  · intro b
    rw [and_mask_eq_iff_opcode_eq]
    refine ⟨(decodeCommand_eq_iff_opcode_eq hmk b p).symm, ?_⟩
    rintro rfl
    exact exec_br_emitsOrSkips b p hst

/-! ## The one effect of a command -/

/-- A command and the ByteResult that delivers it pass one gate with one frame, so either may emit it, and
nothing else. -/
theorem exec_command_next {i : Instr} {b : Byte} {p : Span} {s t : State}
    (hi : i = decodeCommand b p ∨ i = .br b p) (h : exec i s = .next t) :
    ∃ o : Option OutputFrame, t = s.emitOption o := by
  have hgate : commandEffect (byteFrame b p) s = .next t := by
    obtain rfl | rfl := hi
    · rwa [exec_decodeCommand_eq_commandEffect] at h
    · rwa [exec_br_eq_commandEffect] at h
  obtain ⟨_, rfl⟩ | ⟨_, rfl⟩ := commandEffect_next hgate
  · exact ⟨none, rfl⟩
  · exact ⟨_, rfl⟩

/-! ## The obligations -/

/-- Settles O9: the four instances of the opcodes' rule whose mapper row carries the argument. -/
theorem argumentCommandsEmitTheirFrame : Obligations.ArgumentCommandsEmitTheirFrame :=
  ⟨commandRule_of_decodeCommand 0b000#3 fun a p => Option.some.inj (Laws.RoundTrip.rcr a p),
    commandRule_of_decodeCommand 0b010#3 fun a p => Option.some.inj (Laws.RoundTrip.wcr a p),
    commandRule_of_decodeCommand 0b100#3 fun a p => Option.some.inj (Laws.RoundTrip.bfs a p),
    commandRule_of_decodeCommand 0b101#3 fun a p => Option.some.inj (Laws.RoundTrip.bfc a p)⟩

/-- Settles O10: the three instances whose mapper row is a frame without an argument. -/
theorem noArgumentCommandsEmitTheirFrame : Obligations.NoArgumentCommandsEmitTheirFrame :=
  ⟨commandRule_of_decodeCommand 0b001#3 fun a p => Option.some.inj (Laws.RoundTrip.rbm a p),
    commandRule_of_decodeCommand 0b011#3 fun a p => Option.some.inj (Laws.RoundTrip.wbm a p),
    commandRule_of_decodeCommand 0b111#3 fun a p => Option.some.inj (Laws.RoundTrip.src a p)⟩

/-- Settles O11: the instance whose mapper row is empty. -/
theorem opcode110IsSkipped : Obligations.Opcode110IsSkipped :=
  commandRule_of_decodeCommand 0b110#3 fun a p => Option.some.inj (Laws.RoundTrip.unrecognized110 a p)

/-- Settles O13: an emission keeps those fields, and with no frame to emit it keeps the state. -/
theorem commandHasNoEffectButItsEmission : Obligations.CommandHasNoEffectButItsEmission := by
  intro i b p s t hi hexec
  obtain ⟨o, rfl⟩ := exec_command_next hi hexec
  refine ⟨emitOption_st s o, emitOption_frOut s o, emitOption_presented s o, emitOption_input s o, ?_⟩
  cases o with
  | none => exact .inl rfl
  | some f => exact .inr ⟨f, emit_emitted s f⟩

end Machine

end Sys2Proof
end

section
/-! SUPPORT. Proofs of the family 60_exceptions.md: no instruction raises an exception (R64). -/

namespace Sys2Proof.Machine

theorem exec_answers (i : Instr) (s : State) : ∃ t, exec i s = .next t := by
  obtain ⟨_, _, hexec⟩ := exec_decidedBySt i s.st
  exact ⟨_, hexec s rfl⟩

/-- The block has no exception type: `Fault` has no constructor. -/
theorem not_exists_fault : ¬ ∃ _ : Fault, True := by
  rintro ⟨r, _⟩
  cases r

/-- Settles O21: what `st` decides is a next state for every instruction, and no fault could be raised. -/
theorem noInstructionRaises : Obligations.NoInstructionRaises :=
  ⟨exec_answers, not_exists_fault⟩

end Sys2Proof.Machine
end

section
/-! SUPPORT. Proofs of the family 'other', first part. The laws that the rest of the family cites: what a slot of
the input stands for, and what one step does with it, said through the spec's event step (R48). -/

namespace Sys2Proof

/-- The instruction that an event runs (30_encoding.md R37, R38). -/
def InputEvent.instr : InputEvent → Instr
  | .enable => .en
  | .disable => .dis
  | .byteResult b p => .br b p

/-! ## What a slot stands for -/

/-- The four things a slot can be. -/
inductive SlotView : InputSlot → Prop
  | reset : SlotView .reset
  | idle {t : Transfer} (hvalid : t.valid = false) : SlotView (.port t)
  | event {t : Transfer} (e : InputEvent) (hvalid : t.valid = true) (hdecode : decodeEvent t = .ok e.instr)
      (hevents : (InputSlot.port t).events = [e]) : SlotView (.port t)
  | reserved {t : Transfer} (hvalid : t.valid = true) (hkind : t.kind = 0b11#2) : SlotView (.port t)

@[simp] theorem events_reset : InputSlot.reset.events = [.disable] := rfl

theorem events_of_idle {t : Transfer} (h : t.valid = false) : (InputSlot.port t).events = [] := by
  simp [InputSlot.events, h]

theorem events_of_kind_00 {t : Transfer} (hv : t.valid = true) (hk : t.kind = 0b00#2) :
    (InputSlot.port t).events = [.enable] := by
  simp [InputSlot.events, hv, hk]

theorem events_of_kind_01 {t : Transfer} (hv : t.valid = true) (hk : t.kind = 0b01#2) :
    (InputSlot.port t).events = [.disable] := by
  simp [InputSlot.events, hv, hk]

theorem events_of_kind_10 {t : Transfer} (hv : t.valid = true) (hk : t.kind = 0b10#2) :
    (InputSlot.port t).events = [.byteResult t.byte t.span] := by
  simp [InputSlot.events, hv, hk, Transfer.span]

theorem events_of_kind_11 {t : Transfer} (hk : t.kind = 0b11#2) : (InputSlot.port t).events = [] := by
  simp [InputSlot.events, hk]

/-- Every slot is one of the four. -/
theorem slotView : ∀ x : InputSlot, SlotView x
  | .reset => .reset
  | .port t => by
    cases hv : t.valid with
    | false => exact .idle hv
    | true =>
      obtain hk | hk | hk | hk := kind_cases t.kind
      · exact .event .enable hv (decodeEvent_of_kind_00 hk) (events_of_kind_00 hv hk)
      · exact .event .disable hv (decodeEvent_of_kind_01 hk) (events_of_kind_01 hv hk)
      · exact .event (.byteResult t.byte t.span) hv (decodeEvent_of_kind_10 hk) (events_of_kind_10 hv hk)
      · exact .reserved hv hk

theorem events_eq_nil_or_singleton (x : InputSlot) : x.events = [] ∨ ∃ e, x.events = [e] := by
  cases slotView x with
  | reset => exact .inr ⟨_, events_reset⟩
  | idle hv => exact .inl (events_of_idle hv)
  | event e hv hd he => exact .inr ⟨e, he⟩
  | reserved hv hk => exact .inl (events_of_kind_11 hk)

theorem reserved_eq_true_iff {t : Transfer} :
    (InputSlot.port t).reserved = true ↔ t.valid = true ∧ t.kind = 0b11#2 := by
  simp [InputSlot.reserved]

/-- A slot with an event in it keeps the framer's duty. -/
theorem reserved_eq_false_of_events_eq {x : InputSlot} {e : InputEvent} (h : x.events = [e]) :
    x.reserved = false := by
  rw [Bool.eq_false_iff]
  intro hres
  cases x with
  | reset => cases hres
  | port t =>
    obtain ⟨_, hk⟩ := reserved_eq_true_iff.1 hres
    rw [events_of_kind_11 hk] at h
    cases h

/-! ## The clauses of the spec's event step -/

theorem eventStep_enable (v : Machine.DecoderState) : eventStep v .enable = (.awaitingOpcode, none) := by
  cases v <;> rfl

theorem eventStep_disable (v : Machine.DecoderState) : eventStep v .disable = (.disabled, none) := by
  cases v <;> rfl

theorem eventStep_byteResult_of_disabled (b : Byte) (p : Span) :
    eventStep .disabled (.byteResult b p) = (.disabled, none) := rfl

theorem eventStep_byteResult_of_awaitingOpcode (b : Byte) (p : Span) :
    eventStep .awaitingOpcode (.byteResult b p) = (.awaitingOpcode, byteFrame b p) := rfl

namespace Machine

/-! ## An event's instruction does what the spec's event step says -/

/-- The state after an event, from the spec's event step (40_transaction_events.md R48): its `st`, and its
frame, if any, emitted. -/
def State.runEvent (s : State) (e : InputEvent) : State :=
  (s.setSt (eventStep s.st e).1).emitOption (eventStep s.st e).2

theorem exec_instr (e : InputEvent) (s : State) : exec e.instr s = .next (s.runEvent e) := by
  cases e with
  | enable => rw [InputEvent.instr, exec_en_eq, State.runEvent, eventStep_enable, emitOption_none]
  | disable => rw [InputEvent.instr, exec_dis_eq, State.runEvent, eventStep_disable, emitOption_none]
  | byteResult b p =>
    rw [InputEvent.instr, exec_br_eq_commandEffect]
    cases hst : s.st with
    | disabled =>
      rw [commandEffect_of_disabled _ hst, State.runEvent, hst, eventStep_byteResult_of_disabled,
        setSt_of_st_eq hst, emitOption_none]
    | awaitingOpcode =>
      rw [commandEffect_of_awaitingOpcode _ hst, State.runEvent, hst, eventStep_byteResult_of_awaitingOpcode,
        setSt_of_st_eq hst]

variable (s : State) (e : InputEvent)

@[simp] theorem runEvent_st : (s.runEvent e).st = (eventStep s.st e).1 := by simp [State.runEvent]
@[simp] theorem runEvent_emitted : (s.runEvent e).emitted = s.emitted ++ (eventStep s.st e).2.toList := by
  simp [State.runEvent]
@[simp] theorem runEvent_pending :
    (s.runEvent e).pending = s.pending ++ (eventStep s.st e).2.toList.map (fun f => ⟨Config.latency, f⟩) := by
  simp [State.runEvent]
@[simp] theorem runEvent_frOut : (s.runEvent e).frOut = s.frOut := by simp [State.runEvent]
@[simp] theorem runEvent_presented : (s.runEvent e).presented = s.presented := by simp [State.runEvent]
@[simp] theorem runEvent_input : (s.runEvent e).input = s.input := by simp [State.runEvent]

/-! ## One step, by the next slot -/

variable {s} {e}

theorem consume_of_input_nil (h : s.input = []) : s.consume = s := by
  cases s; simp_all [State.consume]

theorem step_of_input_nil (h : s.input = []) : step s = .next (s.drivePort Config.idleSlotsCount) := by
  rw [step_of_idle (fetch_of_input_nil h), consume_of_input_nil h]

theorem step_of_reset_slot {xs : List InputSlot} (h : s.input = .reset :: xs) :
    step s = .next s.consume.assertReset :=
  step_of_reset (fetch_of_input_cons h)

theorem step_of_idle_slot {t : Transfer} {xs : List InputSlot} (h : s.input = .port t :: xs)
    (hv : t.valid = false) : step s = .next (s.consume.drivePort Config.idleSlotsCount) :=
  step_of_idle ((fetch_of_input_cons h).trans (by simp [fetchedOf, hv]))

theorem fetch_of_valid_slot {t : Transfer} {xs : List InputSlot} (h : s.input = .port t :: xs)
    (hv : t.valid = true) : s.fetch = .event t :=
  (fetch_of_input_cons h).trans (by simp [fetchedOf, hv])

theorem step_of_event_slot {t : Transfer} {xs : List InputSlot} (h : s.input = .port t :: xs)
    (hv : t.valid = true) (hd : decodeEvent t = .ok e.instr) :
    step s = .next ((s.consume.runEvent e).drivePort true) :=
  step_of_event (fetch_of_valid_slot h hv) hd (exec_instr e s.consume)

theorem step_of_reserved_slot {t : Transfer} {xs : List InputSlot} (h : s.input = .port t :: xs)
    (hv : t.valid = true) (hk : t.kind = 0b11#2) : step s = .refused .reservedEventKind :=
  step_of_rejected (fetch_of_valid_slot h hv) (decodeEvent_of_kind_11 hk)

/-- A step over any slot that keeps the duty answers, takes that slot from the input, and ends with the `st` and
the stream of the spec's event step over what the slot stands for. -/
theorem step_of_slot {x : InputSlot} {xs : List InputSlot} (h : s.input = x :: xs) (hx : x.reserved = false) :
    ∃ t, step s = .next t ∧ t.input = xs ∧ (t.st, t.emitted) = eventRun (s.st, s.emitted) x.events := by
  cases slotView x with
  | reset => exact ⟨_, step_of_reset_slot h, by simp [h], by simp [eventRun, eventStepAppend, eventStep]⟩
  | idle hv => exact ⟨_, step_of_idle_slot h hv, by simp [h], by simp [events_of_idle hv, eventRun_nil]⟩
  | event e hv hd he =>
    exact ⟨_, step_of_event_slot h hv hd, by simp [h], by simp [he, eventRun, eventStepAppend]⟩
  | reserved hv hk => rw [reserved_eq_true_iff.2 ⟨hv, hk⟩] at hx; cases hx

end Machine

end Sys2Proof
end

section
/-! SUPPORT. Proofs of the family 'other', second part: whole runs. Runs never stop under the framer's duty (D8,
D12), they are the spec's fold of its event step (R49), and what follows from the fold (R50, R51). -/

namespace Sys2Proof

/-! ## The spec's fold -/

/-- The stream so far has no effect on the fold: it stays in front of what the events add. -/
theorem eventRun_eq_append (v : Machine.DecoderState) (fs : List OutputFrame) (es : List InputEvent) :
    eventRun (v, fs) es = ((eventRun (v, []) es).1, fs ++ (eventRun (v, []) es).2) := by
  induction es generalizing v fs with
  | nil => simp [eventRun_nil]
  | cons e es ih =>
    rw [eventRun_cons, eventRun_cons]
    unfold eventStepAppend
    rw [ih, ih (eventStep v e).1 ([] ++ _)]
    simp

/-- The events that change `st`: an Enable leaves `Disabled`, a Disable leaves `AwaitingOpcode`. -/
theorem eventStep_boundary_of_ne {v : Machine.DecoderState} {e : InputEvent} (h : (eventStep v e).1 ≠ v) :
    (v = .disabled → e = .enable) ∧ (v = .awaitingOpcode → e = .disable) := by
  cases v with
  | disabled =>
    cases e with
    | enable => exact ⟨fun _ => rfl, nofun⟩
    | disable | byteResult => exact absurd rfl h
  | awaitingOpcode =>
    cases e with
    | disable => exact ⟨nofun, fun _ => rfl⟩
    | enable | byteResult => exact absurd rfl h

/-- After a Disable the fold goes on from `Disabled`, whatever `st` was. -/
theorem eventRun_disable_cons (v : Machine.DecoderState) (fs : List OutputFrame) (es : List InputEvent) :
    eventRun (v, fs) (.disable :: es) = eventRun (.disabled, fs) es := by
  rw [eventRun_cons, eventStepAppend, eventStep_disable]
  simp

/-- 41_commands.md R52: only opcode `110` has no frame. -/
theorem mapFrame_eq_none_iff (op : BitVec 3) (a : BitVec 5) : mapFrame op a = none ↔ op = 0b110#3 := by
  refine forall_opcode (P := fun op => mapFrame op a = none ↔ op = 0b110#3) ?_ ?_ ?_ ?_ ?_ ?_ ?_ ?_ op <;>
    simp [mapFrame]

/-- A byte emits one frame, or none where its top three bits are `110`. -/
theorem length_byteFrame (b : Byte) (p : Span) :
    (byteFrame b p).toList.length = if b.toNat / 32 = 6 then 0 else 1 := by
  have hop : b.toNat / 32 = 6 ↔ mapFrame (opcode b) (arg b) = none := by
    rw [mapFrame_eq_none_iff, ← BitVec.toNat_inj, opcode_toNat]; rfl
  rw [byteFrame]
  cases hmap : mapFrame (opcode b) (arg b) <;> simp_all

/-- The fold adds as many frames as R51 counts. -/
theorem length_eventRun (v : Machine.DecoderState) (fs : List OutputFrame) (es : List InputEvent) :
    (eventRun (v, fs) es).2.length = fs.length + framesOwed v es := by
  induction es generalizing v fs with
  | nil => cases v <;> rfl
  | cons e es ih =>
    rw [eventRun_cons, eventStepAppend, ih]
    cases e with
    | enable => simp [eventStep_enable, framesOwed]
    | disable => simp [eventStep_disable, framesOwed]
    | byteResult b p =>
      cases v with
      | disabled => simp [eventStep_byteResult_of_disabled, framesOwed]
      | awaitingOpcode =>
        rw [eventStep_byteResult_of_awaitingOpcode, List.length_append, length_byteFrame, framesOwed,
          Nat.add_assoc]

namespace Machine

/-! ## The obligations -/

/-- Settles O33, by induction on the slots: each step is one slot of the fold. -/
theorem runIsTheFoldOfTheEventStep : Obligations.RunIsTheFoldOfTheEventStep := by
  intro xs
  induction xs with
  | nil => exact fun rest s _ hin => ⟨s, rfl, hin, rfl⟩
  | cons x xs ih =>
    intro rest s hduty hin
    obtain ⟨hx, hxs⟩ := List.forall_mem_cons.1 hduty
    obtain ⟨u, hstep, huin, hu⟩ := step_of_slot hin hx
    obtain ⟨t, hrun, htin, ht⟩ := ih rest u hxs huin
    refine ⟨t, (run_succ_of_next hstep).trans hrun, htin, ?_⟩
    rw [ht, hu, List.flatMap_cons, eventRun_append]

theorem step_of_duty {s : State} (h : DutyKept s) : ∃ t, step s = .next t ∧ t.input = s.input.tail := by
  cases hin : s.input with
  | nil => exact ⟨_, step_of_input_nil hin, by simp [hin]⟩
  | cons x xs =>
    obtain ⟨t, hstep, htin, _⟩ := step_of_slot hin (h x (by simp [hin]))
    exact ⟨t, hstep, htin⟩

/-- Settles O24, by induction on the run: what is left of the input has no slot the framer must not drive. -/
theorem runUnderTheDutyNeverStops : Obligations.RunUnderTheDutyNeverStops := by
  intro k
  induction k with
  | zero => exact fun s hduty => ⟨s, rfl, hduty, rfl⟩
  | succ k ih =>
    intro s hduty
    obtain ⟨u, hstep, huin⟩ := step_of_duty hduty
    have huduty : DutyKept u := fun x hx => hduty x (List.mem_of_mem_tail (huin ▸ hx))
    obtain ⟨t, hrun, htduty, htin⟩ := ih u huduty
    exact ⟨t, (run_succ_of_next hstep).trans hrun, htduty, by rw [htin, huin, List.drop_tail]⟩

/-- Settles O34: the run is the fold, and the fold adds what R51 counts. -/
theorem runEmitsOneFramePerQualifyingByte : Obligations.RunEmitsOneFramePerQualifyingByte := by
  intro xs rest s hduty hin
  obtain ⟨t, hrun, _, hfold⟩ := runIsTheFoldOfTheEventStep xs rest s hduty hin
  refine ⟨t, hrun, ?_⟩
  rw [← length_eventRun, ← hfold]

/-- A run over a slot that acts as a Disable, and others after it, is the fold from `Disabled` and the empty
stream, put behind the frames emitted before. -/
theorem run_from_disable {x : InputSlot} {xs rest : List InputSlot} {s : State} (hx : x.events = [.disable])
    (hxs : ∀ y ∈ xs, y.reserved = false) (hin : s.input = x :: xs ++ rest) :
    ∃ t, Host.Core.run core (xs.length + 1) s = .next t ∧
      t.st = (eventRun (.disabled, []) (xs.flatMap InputSlot.events)).1 ∧
      t.emitted = s.emitted ++ (eventRun (.disabled, []) (xs.flatMap InputSlot.events)).2 := by
  have hduty : ∀ y ∈ x :: xs, y.reserved = false :=
    List.forall_mem_cons.2 ⟨reserved_eq_false_of_events_eq hx, hxs⟩
  obtain ⟨t, hrun, _, hfold⟩ := runIsTheFoldOfTheEventStep (x :: xs) rest s hduty hin
  rw [List.flatMap_cons, hx, List.singleton_append, eventRun_disable_cons, eventRun_eq_append] at hfold
  exact ⟨t, hrun, congrArg Prod.fst hfold, congrArg Prod.snd hfold⟩

/-- Settles O35: after the Disable both runs are one and the same fold. -/
theorem disableForgetsTheTransaction : Obligations.DisableForgetsTheTransaction := by
  intro x xs rest rest' s s' hx hxs hin hin'
  obtain ⟨t, hrun, hst, hemit⟩ := run_from_disable hx hxs hin
  obtain ⟨t', hrun', hst', hemit'⟩ := run_from_disable hx hxs hin'
  exact ⟨t, t', _, hrun, hrun', hst.trans hst'.symm, hemit, hemit'⟩

/-- Settles O22: the reserved kind is refused, and every other slot answers. -/
theorem onlyTheReservedKindStopsAStep : Obligations.OnlyTheReservedKindStopsAStep := by
  intro s
  cases hin : s.input with
  | nil => exact ⟨fun _ => rfl, fun _ => ⟨_, step_of_input_nil hin⟩⟩
  | cons x xs =>
    have hhead : (x :: xs).head?.all (fun x => !x.reserved) = true ↔ x.reserved = false := by simp
    rw [hhead]
    constructor
    · rintro ⟨t, hstep⟩
      cases slotView x with
      | reset => rfl
      | idle hv => simp [InputSlot.reserved, hv]
      | event e hv hd he => exact reserved_eq_false_of_events_eq he
      | reserved hv hk => rw [step_of_reserved_slot hin hv hk] at hstep; cases hstep
    · intro hx
      obtain ⟨t, hstep, _⟩ := step_of_slot hin hx
      exact ⟨t, hstep⟩

theorem step_st_of_slot {s t : State} {x : InputSlot} {xs : List InputSlot} (hin : s.input = x :: xs)
    (hstep : step s = .next t) : t.st = (eventRun (s.st, s.emitted) x.events).1 := by
  have hx : x.reserved = false := by
    have hanswers := (onlyTheReservedKindStopsAStep s).1 ⟨t, hstep⟩
    simpa [hin] using hanswers
  obtain ⟨u, hu, _, hfold⟩ := step_of_slot hin hx
  obtain rfl : t = u := Host.Outcome.next.inj (hstep.symm.trans hu)
  exact congrArg Prod.fst hfold

/-- Settles O23: the run reaches the refused step, and a refusal ends it. -/
theorem reservedKindIsRefusedForTheWholeRun : Obligations.ReservedKindIsRefusedForTheWholeRun := by
  intro k m s t tr rest hrun hin hv hk
  rw [show k + 1 + m = k + (m + 1) by omega, run_add hrun]
  exact run_succ_of_refused (step_of_reserved_slot hin hv hk)

/-- Settles O36: an idle slot moves nothing, and of the events only the two boundaries move `st`. -/
theorem onlyBoundariesMoveTheStateRegister : Obligations.OnlyBoundariesMoveTheStateRegister := by
  intro s t hstep hmoved
  cases hin : s.input with
  | nil =>
    rw [step_of_input_nil hin] at hstep
    cases hstep
    exact absurd rfl hmoved
  | cons x xs =>
    refine ⟨x, xs, rfl, ?_⟩
    have hst : t.st = (eventRun (s.st, s.emitted) x.events).1 := step_st_of_slot hin hstep
    obtain hnone | ⟨e, he⟩ := events_eq_nil_or_singleton x
    · rw [hnone] at hst
      exact absurd hst hmoved
    · rw [he] at hst ⊢
      have hboundary := eventStep_boundary_of_ne (hst ▸ hmoved)
      exact ⟨fun h => congrArg (fun e => [e]) (hboundary.1 h), fun h => congrArg (fun e => [e]) (hboundary.2 h)⟩

end Machine

end Sys2Proof
end

section
/-! SUPPORT. Proofs of the family 'other', third part: the output port (R79, D11, D12) and the invariant. What one
step does to the port's frames is said once, by `step_next_emits`; the invariant and the order of the presented
frames follow from it. -/

namespace Sys2Proof

/-- The timestamps of a decoded event are those of its transfer. -/
theorem span?_of_decodeEvent {t : Transfer} {i : Instr} {p : Span} (hd : decodeEvent t = .ok i)
    (hp : i.span? = some p) : p = t.span := by
  obtain hk | hk | hk | hk := kind_cases t.kind
  · rw [decodeEvent_of_kind_00 hk] at hd; cases hd; cases hp
  · rw [decodeEvent_of_kind_01 hk] at hd; cases hd; cases hp
  · rw [decodeEvent_of_kind_10 hk] at hd; cases hd; cases hp; rfl
  · rw [decodeEvent_of_kind_11 hk] at hd; cases hd

namespace Machine

/-! ## What one step emits -/

/-- Every instruction writes `st`, perhaps with its old value, and emits at most one frame, of the right shape
and with its own timestamps. -/
theorem exec_next_emits {i : Instr} {s t : State} (h : exec i s = .next t) :
    ∃ v o, t = (s.setSt v).emitOption o ∧ ∀ f ∈ o, i.span? = some f.span ∧ f.shapeOk = true := by
  obtain ⟨_, v, rfl⟩ | ⟨_, _, o, rfl, hframe⟩ := exec_next h
  · exact ⟨v, none, rfl, by simp⟩
  · exact ⟨s.st, o, rfl, hframe⟩

theorem head?_of_fetch_reset {s : State} (h : s.fetch = .reset) : s.input.head? = some .reset := by
  cases hin : s.input with
  | nil => rw [fetch_of_input_nil hin] at h; cases h
  | cons x xs =>
    rw [fetch_of_input_cons hin] at h
    cases x with
    | reset => rfl
    | port t => cases hv : t.valid <;> simp [fetchedOf, hv] at h

theorem mem_input_of_fetch_event {s : State} {t : Transfer} (h : s.fetch = .event t) : .port t ∈ s.input := by
  cases hin : s.input with
  | nil => rw [fetch_of_input_nil hin] at h; cases h
  | cons x xs =>
    rw [fetch_of_input_cons hin] at h
    cases x with
    | reset => cases h
    | port t' => cases hv : t'.valid <;> simp_all [fetchedOf]

/-- Everything a step that answers can have done to the port's frames: it discarded the pending ones, at a
reset; or it emitted at most one frame, of the right shape and with the timestamps of a transfer in the input,
and the port went on, by a counted slot where there was such a frame. -/
theorem step_next_emits {s t : State} (h : step s = .next t) :
    (s.input.head? = some .reset ∧ t = s.consume.assertReset) ∨
    ∃ v o c, t = ((s.consume.setSt v).emitOption o).drivePort c ∧
      ∀ f ∈ o, c = true ∧ f.shapeOk = true ∧ ∃ tr, .port tr ∈ s.input ∧ f.span = tr.span := by
  obtain ⟨hf, rfl⟩ | ⟨_, rfl⟩ | ⟨tr, i, u, hf, hd, hexec, rfl⟩ := step_next h
  · exact .inl ⟨head?_of_fetch_reset hf, rfl⟩
  · exact .inr ⟨s.st, none, _, rfl, by simp⟩
  · obtain ⟨v, o, rfl, hframe⟩ := exec_next_emits hexec
    refine .inr ⟨v, o, true, rfl, fun f hfo => ?_⟩
    obtain ⟨hspan, hshape⟩ := hframe f hfo
    exact ⟨rfl, hshape, tr, mem_input_of_fetch_event hf, span?_of_decodeEvent hd hspan⟩

/-! ## The order of the frames -/

/-- Settles O38, by what an instruction emits. -/
theorem emittedFramesJoinThePortQueue : Obligations.EmittedFramesJoinThePortQueue := by
  intro i s t hexec
  obtain ⟨v, o, rfl, _⟩ := exec_next_emits hexec
  exact ⟨o, by simp, by simp⟩

/-- The frames a slot emits stand behind those presented and pending before it. -/
theorem drivePort_emitOption_frames (s : State) (o : Option OutputFrame) (c : Bool) :
    ((s.emitOption o).drivePort c).presented ++
        ((s.emitOption o).drivePort c).pending.map PendingFrame.frame =
      s.presented ++ s.pending.map PendingFrame.frame ++ o.toList := by
  rw [drivePort_frames]
  cases o <;> simp

/-- Settles O39: the port going on keeps the frames in order, and it presents what is on it. -/
theorem portPresentsInOrderExactlyOnce : Obligations.PortPresentsInOrderExactlyOnce := by
  intro s t hstep hnoreset
  obtain ⟨hreset, _⟩ | ⟨v, o, c, rfl, _⟩ := step_next_emits hstep
  · exact absurd hreset hnoreset
  · refine ⟨o, by simp, drivePort_emitOption_frames _ o c, ?_⟩
    rw [drivePort_presented]
    simp

/-! ## A quiet port -/

theorem step_emitted_prefix {s t : State} (h : step s = .next t) : s.emitted <+: t.emitted := by
  obtain ⟨_, rfl⟩ | ⟨v, o, c, rfl, _⟩ := step_next_emits h
  · exact List.prefix_rfl
  · simp

theorem run_emitted_prefix {k : Nat} {s t : State} (h : Host.Core.run core k s = .next t) :
    s.emitted <+: t.emitted := by
  induction k generalizing s with
  | zero => cases h; exact List.prefix_rfl
  | succ k ih =>
    obtain ⟨u, hstep, hrun⟩ := run_succ_next h
    exact (step_emitted_prefix hstep).trans (ih hrun)

theorem drivePort_of_pending_nil {s : State} (h : s.pending = []) (c : Bool) :
    (s.drivePort c).pending = [] ∧ (s.drivePort c).frOut = none := by
  cases c <;> simp [h, restPending, dueFrame]

/-- With nothing pending, a step that emits nothing leaves nothing pending and nothing on the port. -/
theorem step_of_pending_nil {s t : State} (h : step s = .next t) (hp : s.pending = [])
    (he : t.emitted = s.emitted) : t.pending = [] ∧ t.frOut = none := by
  obtain ⟨_, rfl⟩ | ⟨v, o, c, rfl, _⟩ := step_next_emits h
  · exact ⟨rfl, rfl⟩
  · have ho : o = none := by simpa using he
    subst ho
    exact drivePort_of_pending_nil hp c

theorem run_of_pending_nil {k : Nat} {s t : State} (hrun : Host.Core.run core k s = .next t)
    (hp : s.pending = []) (hfr : s.frOut = none) (he : t.emitted = s.emitted) : t.frOut = none := by
  induction k generalizing s with
  | zero => cases hrun; exact hfr
  | succ k ih =>
    obtain ⟨u, hstep, hrun⟩ := run_succ_next hrun
    have hu : u.emitted = s.emitted :=
      (step_emitted_prefix hstep).sublist.antisymm (he ▸ run_emitted_prefix hrun).sublist |>.symm
    obtain ⟨hup, hufr⟩ := step_of_pending_nil hstep hp hu
    exact ih hrun hup hufr (he.trans hu.symm)

/-- Settles O2, by induction on the run: since the stream only grows, no step of it emits. -/
theorem frValidStaysZeroUntilAFrameIsEmitted : Obligations.FrValidStaysZeroUntilAFrameIsEmitted := by
  refine ⟨rfl, fun k s t hp hfr hrun he => ?_⟩
  rw [State.frValid, run_of_pending_nil hrun hp hfr he]
  rfl

/-! ## The counts of the pending frames -/

/-- The counts rise strictly and stay below `n`. -/
structure RisingBelow (n : Nat) (ps : List PendingFrame) : Prop where
  rising : ps.Pairwise fun p q => p.remaining < q.remaining
  below  : ∀ p ∈ ps, p.remaining < n

theorem RisingBelow.mono {n : Nat} {ps : List PendingFrame} (h : RisingBelow n ps) : RisingBelow (n + 1) ps :=
  ⟨h.rising, fun p hp => Nat.lt_succ_of_lt (h.below p hp)⟩

theorem RisingBelow.concat {n : Nat} {ps : List PendingFrame} (h : RisingBelow n ps) (f : OutputFrame) :
    RisingBelow (n + 1) (ps ++ [⟨n, f⟩]) := by
  constructor
  · rw [List.pairwise_append]
    exact ⟨h.rising, List.pairwise_singleton _ _, fun p hp q hq => by
      rw [List.mem_singleton.1 hq]; exact h.below p hp⟩
  · intro p hp
    obtain hp | hp := List.mem_append.1 hp
    · exact h.mono.below p hp
    · rw [List.mem_singleton.1 hp]; exact Nat.lt_succ_self n

/-- Counting down keeps the counts apart where none has run out. -/
theorem RisingBelow.map_countDown {n : Nat} {ps : List PendingFrame} (h : RisingBelow (n + 1) ps)
    (hpos : ∀ p ∈ ps, 0 < p.remaining) : RisingBelow n (ps.map PendingFrame.countDown) := by
  constructor
  · rw [List.pairwise_map]
    refine h.rising.imp_of_mem fun {p q} hp _ hpq => ?_
    have hp0 := hpos p hp
    simp only [PendingFrame.countDown]
    omega
  · intro q hq
    obtain ⟨p, hp, rfl⟩ := List.mem_map.1 hq
    have hp0 := hpos p hp
    have hpn := h.below p hp
    simp only [PendingFrame.countDown]
    omega

/-- A counted slot lowers the bound by one: a frame whose count has run out is first, and leaves. -/
theorem RisingBelow.restPending {n : Nat} {ps : List PendingFrame} (h : RisingBelow (n + 1) ps) :
    RisingBelow n (restPending ps) := by
  match ps, h with
  | [], _ => exact ⟨List.Pairwise.nil, by simp [Machine.restPending]⟩
  | ⟨0, f⟩ :: ps, ⟨hrising, hbelow⟩ =>
    obtain ⟨hfirst, hrest⟩ := List.pairwise_cons.1 hrising
    exact RisingBelow.map_countDown ⟨hrest, (List.forall_mem_cons.1 hbelow).2⟩ hfirst
  | ⟨m + 1, f⟩ :: ps, h =>
    obtain ⟨hfirst, _⟩ := List.pairwise_cons.1 h.rising
    exact h.map_countDown (List.forall_mem_cons.2 ⟨m.succ_pos, fun p hp => Nat.zero_lt_of_lt (hfirst p hp)⟩)

/-- What is emitted joins with the whole `LATENCY` to wait. -/
theorem emitOption_risingBelow {s : State} (h : RisingBelow Config.latency s.pending) (o : Option OutputFrame) :
    RisingBelow (Config.latency + 1) (s.emitOption o).pending := by
  cases o with
  | none => exact h.mono
  | some f => exact h.concat f

/-- A slot that emits counts at once for the frame it emits. -/
theorem drivePort_emitOption_risingBelow {s : State} (h : RisingBelow Config.latency s.pending)
    {o : Option OutputFrame} {c : Bool} (hc : ∀ f ∈ o, c = true) :
    RisingBelow Config.latency ((s.emitOption o).drivePort c).pending := by
  cases c with
  | true => exact (emitOption_risingBelow h o).restPending
  | false =>
    have ho : o = none := Option.eq_none_iff_forall_not_mem.2 fun f hf => Bool.false_ne_true (hc f hf)
    rw [ho]
    exact h

end Machine

/-! ## The invariant -/

theorem Inv.risingBelow {tsW : Nat} {s : Machine.State} (h : Inv tsW s) :
    Machine.RisingBelow Config.latency s.pending := ⟨h.rising, h.below⟩

theorem InputSlot.span_fits {tsW : Nat} {t : Transfer} (h : (InputSlot.port t).fits tsW = true) :
    t.span.fits tsW = true := h

namespace Machine

theorem inv_consume_assertReset {tsW : Nat} {s : State} (h : Inv tsW s) : Inv tsW s.consume.assertReset where
  shape := h.shape
  fits := h.fits
  input := fun x hx => h.input x (List.mem_of_mem_tail hx)
  ordered := by simpa using (List.sublist_append_left _ _).trans h.ordered
  rising := List.Pairwise.nil
  below := by simp

/-- A slot that emits at most one frame, of the right shape and with fitting timestamps, keeps the invariant. -/
theorem inv_drivePort_emitOption {tsW : Nat} {s : State} (h : Inv tsW s) (v : DecoderState)
    {o : Option OutputFrame} {c : Bool} (hc : ∀ f ∈ o, c = true) (hshape : ∀ f ∈ o, f.shapeOk = true)
    (hfits : ∀ f ∈ o, f.span.fits tsW = true) :
    Inv tsW (((s.consume.setSt v).emitOption o).drivePort c) :=
  have hpending : RisingBelow Config.latency (((s.consume.setSt v).emitOption o).drivePort c).pending :=
    drivePort_emitOption_risingBelow (s := s.consume.setSt v) h.risingBelow hc
  { shape := by simpa [or_imp, forall_and] using ⟨h.shape, hshape⟩
    fits := by simpa [or_imp, forall_and] using ⟨h.fits, hfits⟩
    input := fun x hx => h.input x (List.mem_of_mem_tail (by simpa using hx))
    ordered := by
      rw [drivePort_emitOption_frames, drivePort_emitted, emitOption_emitted]
      exact h.ordered.append (List.Sublist.refl _)
    rising := hpending.rising
    below := hpending.below }

/-- Settles O41: a reset only discards, and any other step emits at most one frame, whose timestamps are those of
a transfer in the input. -/
theorem everyStepKeepsTheInvariant : Obligations.EveryStepKeepsTheInvariant := by
  intro tsW s t hinv hstep
  obtain ⟨_, rfl⟩ | ⟨v, o, c, rfl, hframe⟩ := step_next_emits hstep
  · exact inv_consume_assertReset hinv
  · have hcounts : ∀ f ∈ o, c = true := fun f hf => (hframe f hf).1
    have hshape : ∀ f ∈ o, f.shapeOk = true := fun f hf => (hframe f hf).2.1
    refine inv_drivePort_emitOption hinv v hcounts hshape fun f hf => ?_
    obtain ⟨_, _, tr, htr, hspan⟩ := hframe f hf
    rw [hspan]
    exact InputSlot.span_fits (hinv.input _ htr)

/-- Settles O42: nothing has been emitted, and nothing is pending. -/
theorem resetMeetsTheInvariant : Obligations.ResetMeetsTheInvariant := fun _ _ hfits =>
  { shape := by simp
    fits := by simp
    input := hfits
    ordered := by simp
    rising := List.Pairwise.nil
    below := by simp }

end Machine

end Sys2Proof
end

section
/-! SUPPORT. Proofs of the family 'other', fourth part: a frame reaches the port `LATENCY` presented events after
its byte (R79, D11). One predicate, `Waits`, follows the frame from slot to slot. -/

namespace Sys2Proof.Machine

/-- In `s` the frame `f` is pending with `n` counted slots to wait, and the frames `fs` come before it: they are
those presented so far and then those pending ahead of it. -/
def Waits (n : Nat) (f : OutputFrame) (fs : List OutputFrame) (s : State) : Prop :=
  ∃ ahead behind, s.pending = ahead ++ ⟨n, f⟩ :: behind ∧ s.presented ++ ahead.map PendingFrame.frame = fs

/-! ## The frame in the queue -/

/-- A frame that has slots to wait is not due, so those ahead of it decide what is. -/
theorem dueFrame_append_of_waiting (ahead behind : List PendingFrame) (n : Nat) (f : OutputFrame) :
    dueFrame (ahead ++ ⟨n + 1, f⟩ :: behind) = dueFrame ahead := by
  match ahead with
  | [] => rfl
  | ⟨0, _⟩ :: _ => rfl
  | ⟨_ + 1, _⟩ :: _ => rfl

theorem restPending_append_of_waiting (ahead behind : List PendingFrame) (n : Nat) (f : OutputFrame) :
    restPending (ahead ++ ⟨n + 1, f⟩ :: behind) =
      restPending ahead ++ ⟨n, f⟩ :: behind.map PendingFrame.countDown := by
  match ahead with
  | [] => rfl
  | ⟨0, _⟩ :: _ => simp [restPending, PendingFrame.countDown]
  | ⟨_ + 1, _⟩ :: _ => simp [restPending, PendingFrame.countDown]

variable {n : Nat} {f : OutputFrame} {fs : List OutputFrame} {s : State}

theorem waits_emit (s : State) (f : OutputFrame) :
    Waits Config.latency f (s.presented ++ s.pending.map PendingFrame.frame) (s.emit f) :=
  ⟨s.pending, [], rfl, rfl⟩

theorem Waits.presented_length_le (h : Waits n f fs s) : s.presented.length ≤ fs.length := by
  obtain ⟨ahead, behind, _, rfl⟩ := h
  simp

/-- An event emits behind the frame. -/
theorem Waits.runEvent (h : Waits n f fs s) (e : InputEvent) : Waits n f fs (s.consume.runEvent e) := by
  obtain ⟨ahead, behind, hpending, hfs⟩ := h
  exact ⟨ahead, behind ++ _, by
    rw [runEvent_pending, consume_pending, hpending, List.append_assoc, List.cons_append], by simpa using hfs⟩

/-- A counted slot brings the frame one slot nearer, and presents at most one of those ahead of it. -/
theorem Waits.drivePort (h : Waits (n + 1) f fs s) : Waits n f fs (s.drivePort true) := by
  obtain ⟨ahead, behind, hpending, hfs⟩ := h
  refine ⟨restPending ahead, behind.map PendingFrame.countDown, ?_, ?_⟩
  · rw [drivePort_pending_true, hpending, restPending_append_of_waiting]
  · rw [drivePort_presented_true, hpending, dueFrame_append_of_waiting, List.append_assoc,
      dueFrame_append_restPending, hfs]

/-- With no slot left to wait the frame is first, and a counted slot presents it. -/
theorem Waits.presents (h : Waits 0 f fs s) (hrising : s.pending.Pairwise fun p q => p.remaining < q.remaining) :
    (s.drivePort true).frOut = some f ∧ (s.drivePort true).presented = fs ++ [f] := by
  obtain ⟨ahead, behind, hpending, hfs⟩ := h
  have hfirst : ahead = [] := by
    rw [hpending, List.pairwise_append] at hrising
    obtain ⟨_, _, hahead⟩ := hrising
    exact List.eq_nil_iff_forall_not_mem.2 fun p hp => Nat.not_lt_zero _ (hahead p hp _ List.mem_cons_self)
  subst hfirst
  have hdue : dueFrame s.pending = some f := by rw [hpending]; rfl
  simp_all

/-! ## The frame from slot to slot -/

theorem step_of_presentsEvent {x : InputSlot} {xs : List InputSlot} (hin : s.input = x :: xs)
    (hx : x.presentsEvent = true) : ∃ e, step s = .next ((s.consume.runEvent e).drivePort true) := by
  cases slotView x with
  | reset => cases hx
  | idle hv => simp [InputSlot.presentsEvent, hv] at hx
  | event e hv hd he => exact ⟨e, step_of_event_slot hin hv hd⟩
  | reserved hv hk => simp [InputSlot.presentsEvent, hk] at hx

/-- Seen before the port goes on in a slot: over as many presented events as it has slots to wait more than `n`,
the frame comes to wait `n` slots. -/
theorem run_waits {xs rest : List InputSlot} (hxs : ∀ x ∈ xs, x.presentsEvent = true)
    (hin : s.input = xs ++ rest) (hwaits : Waits (n + xs.length) f fs s)
    (hcounts : RisingBelow (Config.latency + 1) s.pending) :
    ∃ t, Host.Core.run core xs.length (s.drivePort true) = .next (t.drivePort true) ∧ Waits n f fs t ∧
      RisingBelow (Config.latency + 1) t.pending := by
  induction xs generalizing s with
  | nil => exact ⟨s, rfl, hwaits, hcounts⟩
  | cons x xs ih =>
    obtain ⟨hx, hxs⟩ := List.forall_mem_cons.1 hxs
    obtain ⟨e, hstep⟩ := step_of_presentsEvent (s := s.drivePort true) hin hx
    obtain ⟨t, hrun, ht⟩ := ih hxs (by simp [hin]) (hwaits.drivePort.runEvent e)
      (emitOption_risingBelow hcounts.restPending _)
    exact ⟨t, (run_succ_of_next hstep).trans hrun, ht⟩

theorem step_of_emitting_byte {tr : Transfer} {xs : List InputSlot} (hst : s.st = .awaitingOpcode)
    (hin : s.input = .port tr :: xs) (hv : tr.valid = true) (hk : tr.kind = 0b10#2)
    (hf : byteFrame tr.byte tr.span = some f) : step s = .next ((s.consume.emit f).drivePort true) := by
  refine step_of_event (fetch_of_valid_slot hin hv) (decodeEvent_of_kind_10 hk) ?_
  rw [exec_br_eq_commandEffect, hf]
  exact commandEffect_of_awaitingOpcode (s := s.consume) (some f) hst

/-- A frame that a step emits, `j` presented events after that step. -/
theorem run_waits_of_emit {tsW j : Nat} {xs rest : List InputSlot} (hinv : Inv tsW s)
    (hstep : step s = .next ((s.consume.emit f).drivePort true)) (hin : s.input.tail = xs ++ rest)
    (hxs : ∀ x ∈ xs, x.presentsEvent = true) (hlen : xs.length = Config.latency) (hj : j + n = Config.latency) :
    ∃ t, Host.Core.run core (j + 1) s = .next (t.drivePort true) ∧
      Waits n f (s.presented ++ s.pending.map PendingFrame.frame) t ∧
      RisingBelow (Config.latency + 1) t.pending := by
  have hjlen : (xs.take j).length = j := by rw [List.length_take]; omega
  have hinput : (s.consume.emit f).input = xs.take j ++ (xs.drop j ++ rest) := by
    rw [← List.append_assoc, List.take_append_drop]
    exact hin
  have hwaits : Waits (n + (xs.take j).length) f (s.presented ++ s.pending.map PendingFrame.frame)
      (s.consume.emit f) := by
    rw [hjlen, Nat.add_comm, hj]
    exact waits_emit s.consume f
  have hevents : ∀ x ∈ xs.take j, x.presentsEvent = true := fun x hx => hxs x (List.mem_of_mem_take hx)
  obtain ⟨t, hrun, ht⟩ := run_waits hevents hinput hwaits (hinv.risingBelow.concat f)
  rw [hjlen] at hrun
  exact ⟨t, (run_succ_of_next hstep).trans hrun, ht⟩

/-- Settles O40: `LATENCY` events after its byte the frame has no slot left to wait, and before that it has one. -/
theorem frameIsPresentedAfterLatency : Obligations.FrameIsPresentedAfterLatency := by
  intro tsW s tr xs rest f hinv hst hin hv hk hf hlen hxs
  have hstep := step_of_emitting_byte hst hin hv hk hf
  have htail : s.input.tail = xs ++ rest := congrArg List.tail hin
  constructor
  · obtain ⟨t, hrun, hwaits, hcounts⟩ :=
      run_waits_of_emit (n := 0) hinv hstep htail hxs hlen (Nat.add_zero _)
    exact ⟨_, hrun, hwaits.presents hcounts.rising⟩
  · intro j u hj hrun
    cases j with
    | zero =>
      obtain rfl : s = u := Host.Outcome.next.inj hrun
      exact Nat.le_add_right _ _
    | succ j =>
      obtain ⟨n, hn⟩ := Nat.exists_eq_add_of_le hj
      obtain ⟨t, hrun', hwaits, _⟩ :=
        run_waits_of_emit (n := n + 1) (j := j) hinv hstep htail hxs hlen (by omega)
      obtain rfl : t.drivePort true = u := Host.Outcome.next.inj (hrun'.symm.trans hrun)
      simpa using hwaits.drivePort.presented_length_le

end Sys2Proof.Machine
end

section
/-! SUPPORT. Proofs of the family 'other', fifth part: decoding and encoding (30_encoding.md sections 1 and 2, D7),
the frame mapper read backwards (41_commands.md section 1), the port's signals of a frame (30_encoding.md section 3,
D9, D10), the spelling of command bytes (R42, D15) and the code of `st` (D1, D2). -/

namespace Sys2Proof

/-! ## The encoder -/

theorem encode_valid (i : Instr) : (encode i).valid = true := by
  cases i <;> rfl

/-- The family RoundTrip, for every instruction. -/
theorem roundTrip : ∀ i : Instr, Laws.RoundTrip.Statement i
  | .rcr a p => Laws.RoundTrip.rcr a p
  | .rbm x p => Laws.RoundTrip.rbm x p
  | .wcr a p => Laws.RoundTrip.wcr a p
  | .wbm x p => Laws.RoundTrip.wbm x p
  | .bfs a p => Laws.RoundTrip.bfs a p
  | .bfc a p => Laws.RoundTrip.bfc a p
  | .unrecognized110 x p => Laws.RoundTrip.unrecognized110 x p
  | .src x p => Laws.RoundTrip.src x p
  | .en => Laws.RoundTrip.en
  | .dis => Laws.RoundTrip.dis
  | .br b p => Laws.RoundTrip.br b p

/-- Code 0 fits every width, so the signals an Enable or Disable does not use always fit. -/
theorem boundaryTransfer_fits (tsW : Nat) (kind : BitVec 2) :
    (InputSlot.port (boundaryTransfer kind)).fits tsW = true := by
  simp [InputSlot.fits, boundaryTransfer, TS.fits, TS.zero, codeFits]

theorem wellFormed_eq_fits_encode (tsW : Nat) (i : Instr) :
    i.wellFormed tsW = InputSlot.fits tsW (.port (encode i)) := by
  cases i with
  | en => exact (boundaryTransfer_fits tsW 0b00#2).symm
  | dis => exact (boundaryTransfer_fits tsW 0b01#2).symm
  | rcr | rbm | wcr | wbm | bfs | bfc | unrecognized110 | src | br => rfl

/-- Settles O26, by the round trip of each instruction. -/
theorem decodeOfEncodeIsTheInstruction : Obligations.DecodeOfEncodeIsTheInstruction :=
  fun i => ⟨roundTrip i, encode_valid i, fun tsW => wellFormed_eq_fits_encode tsW i⟩

/-- A presented ByteResult is the transfer that its byte and timestamps make. -/
theorem byteTransfer_eq_of_kind_10 {t : Transfer} (hv : t.valid = true) (hk : t.kind = 0b10#2) :
    byteTransfer t.byte t.span = t := by
  cases t
  simp_all [byteTransfer, Transfer.span]

theorem encode_kind_of_decodeEvent {t : Transfer} {i : Instr} (hd : decodeEvent t = .ok i) :
    (encode i).kind = t.kind := by
  obtain hk | hk | hk | hk := kind_cases t.kind
  · rw [decodeEvent_of_kind_00 hk] at hd; cases hd; exact hk.symm
  · rw [decodeEvent_of_kind_01 hk] at hd; cases hd; exact hk.symm
  · rw [decodeEvent_of_kind_10 hk] at hd; cases hd; exact hk.symm
  · rw [decodeEvent_of_kind_11 hk] at hd; cases hd

theorem decodeEvent_eq_error_iff (t : Transfer) :
    decodeEvent t = .error .reservedEventKind ↔ t.kind = 0b11#2 := by
  obtain hk | hk | hk | hk := kind_cases t.kind
  · simp [decodeEvent_of_kind_00 hk, hk]
  · simp [decodeEvent_of_kind_01 hk, hk]
  · simp [decodeEvent_of_kind_10 hk, hk]
  · simp [decodeEvent_of_kind_11 hk, hk]

/-- Settles O27: a ByteResult is the transfer of its byte, and a boundary event has its kind alone to encode. -/
theorem encodeOfDecodeIsTheTransfer : Obligations.EncodeOfDecodeIsTheTransfer := by
  intro tr hv
  refine ⟨fun i hd => ⟨encode_valid i, encode_kind_of_decodeEvent hd, fun hk => ?_⟩, fun hk => ?_,
    decodeEvent_eq_error_iff tr⟩
  · rw [decodeEvent_of_kind_10 hk] at hd
    cases hd
    exact byteTransfer_eq_of_kind_10 hv hk
  · rw [encode_decodeCommand]
    exact byteTransfer_eq_of_kind_10 hv hk

/-- Settles O28, word by word. -/
theorem writtenOutWordsDecode : Obligations.WrittenOutWordsDecode := fun _ =>
  ⟨rfl, rfl, rfl, rfl, rfl, rfl, rfl, rfl, rfl, rfl, rfl, rfl⟩

/-! ## The frame mapper, read backwards -/

/-- A frame's kind gives back the opcode it came from, and says whether the argument went with it. -/
theorem eq_tag_of_mapFrame {op : BitVec 3} {a : BitVec 5} {k : FrameKind} {oa : Option (BitVec 5)}
    (h : mapFrame op a = some (k, oa)) : op = k.tag ∧ oa = if k.hasArg then some a else none := by
  revert h
  refine forall_opcode
    (P := fun op => mapFrame op a = some (k, oa) → op = k.tag ∧ oa = if k.hasArg then some a else none)
    ?_ ?_ ?_ ?_ ?_ ?_ ?_ ?_ op <;> · rintro ⟨⟩ <;> exact ⟨rfl, rfl⟩

/-- Settles O15: the frame's kind gives back the opcode. -/
theorem mapperIsInjectiveOnRecognisedOpcodes : Obligations.MapperIsInjectiveOnRecognisedOpcodes := by
  refine ⟨fun op op' a a' k oa oa' h h' => ?_, mapFrame_eq_none_iff⟩
  obtain ⟨hop, _⟩ := eq_tag_of_mapFrame h
  obtain ⟨hop', _⟩ := eq_tag_of_mapFrame h'
  rw [hop, hop']

/-! ## The port's signals -/

theorem FrameKind.ofTag_tag (k : FrameKind) : FrameKind.ofTag k.tag = some k := by
  cases k <;> rfl

theorem FrameKind.tag_ne_110 (k : FrameKind) : k.tag ≠ 0b110#3 := by
  cases k <;> decide

theorem FrameKind.hasArg_iff_tag_mem (k : FrameKind) :
    k.hasArg = true ↔ k.tag ∈ [0b000#3, 0b010#3, 0b100#3, 0b101#3] := by
  cases k <;> decide

/-- A byte's frame by the byte's fields: its kind's tag is the opcode. -/
theorem byteFrame_eq_some {b : Byte} {p : Span} {f : OutputFrame} (h : byteFrame b p = some f) :
    opcode b = f.kind.tag ∧ f = ⟨f.kind, if f.kind.hasArg then some (arg b) else none, p⟩ := by
  cases hmap : mapFrame (opcode b) (arg b) with
  | none => simp [byteFrame, hmap] at h
  | some r =>
    obtain ⟨hop, harg⟩ := eq_tag_of_mapFrame hmap
    rw [byteFrame_of_mapFrame hmap p] at h
    cases h
    exact ⟨hop, by rw [← harg]⟩

/-- The port shows the argument where the kind carries one, and zero elsewhere. -/
theorem signals_arg (k : FrameKind) (a : BitVec 5) (p : Span) :
    (OutputFrame.mk k (if k.hasArg then some a else none) p).signals.arg = if k.hasArg then a else 0#5 := by
  cases h : k.hasArg <;> simp [OutputFrame.signals, h]

/-- A consumer that obeys `fr_has_arg` reads the frame back. -/
theorem signals_frame? (k : FrameKind) (a : BitVec 5) (p : Span) :
    (OutputFrame.mk k (if k.hasArg then some a else none) p).signals.frame? =
      some ⟨k, if k.hasArg then some a else none, p⟩ := by
  cases h : k.hasArg <;> simp [OutputFrame.signals, FrameSignals.frame?, FrameKind.ofTag_tag, h]

/-! ## The spelling of command bytes -/

/-- Below 32 the argument's bits are the byte's low bits. -/
theorem assembleField_of_lt (op : BitVec 3) {a : Nat} (h : a < 32) :
    assembleField op a = some (commandByte op 0#5 ||| BitVec.ofNat 8 a) := by
  have hor : ∀ (op : BitVec 3) (x : BitVec 5), commandByte op x = commandByte op 0#5 ||| x.setWidth 8 := by decide
  have hwidth : (BitVec.ofNat 5 a).setWidth 8 = BitVec.ofNat 8 a := by
    rw [← BitVec.toNat_inj, BitVec.toNat_setWidth, BitVec.toNat_ofNat, BitVec.toNat_ofNat]
    omega
  rw [assembleField, if_pos h, hor, hwidth]

theorem assembleField_of_ge (op : BitVec 3) {a : Nat} (h : 32 ≤ a) : assembleField op a = none :=
  if_neg (Nat.not_lt.2 h)

theorem opcode_of_assembleField {op : BitVec 3} {a : Nat} {b : Byte} (h : assembleField op a = some b) :
    opcode b = op := by
  unfold assembleField at h
  split at h <;> cases h
  exact opcode_commandByte op _

theorem assemble_byte_toNat (b : Byte) : assemble (.byte b.toNat) = some b := by
  rw [assemble, if_pos b.isLt, BitVec.ofNat_toNat, BitVec.setWidth_eq]

theorem eq_toNat_of_assemble_byte {v : Nat} {b : Byte} (h : assemble (.byte v) = some b) : v = b.toNat := by
  simp only [assemble] at h
  split at h <;> cases h
  next hv => rw [BitVec.toNat_ofNat, Nat.mod_eq_of_lt hv]

/-- No spelling of a command assembles to a byte of opcode `110`. -/
theorem eq_byte_of_opcode_110 {x : Spelling} {b : Byte} (h : assemble x = some b) (hop : opcode b = 0b110#3) :
    x = .byte b.toNat := by
  cases x with
  | byte v => rw [eq_toNat_of_assemble_byte h]
  | rcr | wcr | bfs | bfc | rbm | wbm | src =>
    rw [opcode_of_assembleField h] at hop
    exact absurd hop (by decide)

/-- Settles O29: each spelling of a command is its opcode's field, and `.byte` is the byte itself. -/
theorem spellingsAssembleToTheirBytes : Obligations.SpellingsAssembleToTheirBytes := by
  refine ⟨fun a h => ?_, fun a h => ?_, assemble_byte_toNat, fun _ _ => eq_byte_of_opcode_110⟩
  · exact ⟨(assembleField_of_lt 0b000#3 h).trans (congrArg some BitVec.zero_or),
      assembleField_of_lt 0b010#3 h, assembleField_of_lt 0b100#3 h, assembleField_of_lt 0b101#3 h,
      assembleField_of_lt 0b001#3 h, assembleField_of_lt 0b011#3 h, assembleField_of_lt 0b111#3 h⟩
  · simp [assemble, assembleField_of_ge _ h]

namespace Machine

/-- A ByteResult that appends one frame was processed while `AwaitingOpcode`, and the frame is its byte's. -/
theorem byteFrame_of_exec_br {b : Byte} {p : Span} {s t : State} {f : OutputFrame}
    (hexec : exec (.br b p) s = .next t) (hemit : t.emitted = s.emitted ++ [f]) :
    s.st = .awaitingOpcode ∧ byteFrame b p = some f ∧ t = s.emit f := by
  obtain ⟨_, rfl⟩ | ⟨hst, rfl⟩ := execBr_next hexec
  · simp at hemit
  · have hf : byteFrame b p = some f := by
      rw [emitOption_emitted, List.append_cancel_left_eq] at hemit
      exact Option.toList_eq_singleton_iff.1 hemit
    exact ⟨hst, hf, by rw [hf, emitOption_some]⟩

/-- Settles O37: the emitted frame is the byte's, and the byte's fields are what the port shows of it. -/
theorem framePortShowsTheEmittedFrame : Obligations.FramePortShowsTheEmittedFrame := by
  intro b p s t f hexec hemit
  obtain ⟨_, hf, _⟩ := byteFrame_of_exec_br hexec hemit
  obtain ⟨hop, hfields⟩ := byteFrame_eq_some hf
  generalize f.kind = k at hop hfields
  subst hfields
  have htag : b.extractLsb' 5 3 = k.tag := hop
  rw [htag]
  exact ⟨rfl, k.tag_ne_110, k.hasArg_iff_tag_mem, signals_arg k (arg b) p, rfl, rfl, signals_frame? k (arg b) p⟩

/-- Settles O32: the ByteResult and its byte's command pass one gate with one frame. -/
theorem byteResultRunsTheCommandOfItsByte : Obligations.ByteResultRunsTheCommandOfItsByte := by
  intro b p s
  rw [exec_br_eq_commandEffect, exec_decodeCommand_eq_commandEffect]

/-! ## Signals that are not read -/

theorem decodeEvent_congr_of_kind_eq {a b : Transfer} (h : a.kind = b.kind) (hk : a.kind ≠ 0b10#2) :
    decodeEvent a = decodeEvent b := by
  obtain ha | ha | ha | ha := kind_cases a.kind
  · rw [decodeEvent_of_kind_00 ha, decodeEvent_of_kind_00 (h ▸ ha)]
  · rw [decodeEvent_of_kind_01 ha, decodeEvent_of_kind_01 (h ▸ ha)]
  · exact absurd ha hk
  · rw [decodeEvent_of_kind_11 ha, decodeEvent_of_kind_11 (h ▸ ha)]

/-- A step reads of a presented transfer only what it decodes to. -/
theorem step_congr_of_decodeEvent_eq {a b : Transfer} {s s' : State} (ha : s.fetch = .event a)
    (hb : s'.fetch = .event b) (hs : s.consume = s'.consume) (h : decodeEvent a = decodeEvent b) :
    step s = step s' := by
  cases hd : decodeEvent a with
  | error r => rw [step_of_rejected ha hd, step_of_rejected hb (h ▸ hd)]
  | ok i =>
    obtain ⟨t, hexec⟩ := exec_answers i s.consume
    rw [step_of_event ha hd hexec, step_of_event hb (h ▸ hd) (hs ▸ hexec)]

/-- Settles O30: idle transfers are not decoded, and the others are decoded by their kind alone. -/
theorem unreadSignalsHaveNoEffectOnAStep : Obligations.UnreadSignalsHaveNoEffectOnAStep := by
  intro s a b rest hvalid hkind
  cases ha : a.valid with
  | false => rw [step_of_idle_slot rfl ha, step_of_idle_slot rfl (hvalid ▸ ha)]; rfl
  | true =>
    obtain ⟨hkind, hne⟩ := hkind ha
    exact step_congr_of_decodeEvent_eq (fetch_of_valid_slot rfl ha) (fetch_of_valid_slot rfl (hvalid ▸ ha)) rfl
      (decodeEvent_congr_of_kind_eq hkind hne)

/-! ## The code of `st` -/

theorem ofCode_of_toNat_eq_zero {w : Nat} {v : BitVec w} (h : v.toNat = 0) :
    DecoderState.ofCode v = .next .disabled := by
  simp only [DecoderState.ofCode, h]

theorem ofCode_of_toNat_eq_one {w : Nat} {v : BitVec w} (h : v.toNat = 1) :
    DecoderState.ofCode v = .next .awaitingOpcode := by
  simp only [DecoderState.ofCode, h]

theorem ofCode_of_two_le_toNat {w : Nat} {v : BitVec w} (h : 2 ≤ v.toNat) :
    DecoderState.ofCode v = .refused .unreachableState := by
  obtain ⟨n, hn⟩ := Nat.exists_eq_add_of_le' h
  simp only [DecoderState.ofCode, hn]

/-- Settles O25: the codes of the two decoder states are 0 and 1. -/
theorem widerStateRegisterIsRefusedOutsideTwoCodes :
    Obligations.WiderStateRegisterIsRefusedOutsideTwoCodes := by
  refine ⟨?_, fun _ _ => ofCode_of_toNat_eq_zero, fun _ _ => ofCode_of_toNat_eq_one,
    fun _ _ => ofCode_of_two_le_toNat⟩
  intro d
  cases d with
  | disabled => exact ofCode_of_toNat_eq_zero rfl
  | awaitingOpcode => exact ofCode_of_toNat_eq_one rfl

end Machine

end Sys2Proof
end

section
/-! SUPPORT. Proofs of the family 'other', sixth part: the step is blind to timestamps (R37, D5). Replacing the
timestamps commutes with each state operation, and so with the step. -/

namespace Sys2Proof

/-- A transfer with its timestamps replaced. -/
def Transfer.mapTs (g : TS → TS) (t : Transfer) : Transfer := { t with t0 := g t.t0, t1 := g t.t1 }

/-- An event with its timestamps, if any, replaced. -/
def InputEvent.mapTs (g : TS → TS) : InputEvent → InputEvent
  | .enable => .enable
  | .disable => .disable
  | .byteResult b p => .byteResult b (p.mapTs g)

variable (g : TS → TS)

theorem InputEvent.instr_injective : Function.Injective InputEvent.instr := by
  intro e e' h
  cases e <;> cases e' <;> cases h <;> rfl

/-- The decoder carries timestamps through. -/
theorem decodeEvent_mapTs {t : Transfer} {e : InputEvent} (hd : decodeEvent t = .ok e.instr) :
    decodeEvent (t.mapTs g) = .ok (e.mapTs g).instr := by
  have heq : ∀ {e'}, decodeEvent t = .ok (InputEvent.instr e') → e = e' := fun h =>
    InputEvent.instr_injective (Except.ok.inj (hd.symm.trans h))
  obtain hk | hk | hk | hk := kind_cases t.kind
  · obtain rfl := heq (e' := .enable) (decodeEvent_of_kind_00 hk)
    exact decodeEvent_of_kind_00 hk
  · obtain rfl := heq (e' := .disable) (decodeEvent_of_kind_01 hk)
    exact decodeEvent_of_kind_01 hk
  · obtain rfl := heq (e' := .byteResult t.byte t.span) (decodeEvent_of_kind_10 hk)
    exact decodeEvent_of_kind_10 hk
  · rw [decodeEvent_of_kind_11 hk] at hd
    cases hd

/-- The spec's event step carries timestamps through to its frame. -/
theorem eventStep_mapTs (v : Machine.DecoderState) (e : InputEvent) :
    eventStep v (e.mapTs g) = ((eventStep v e).1, (eventStep v e).2.map (OutputFrame.mapTs g)) := by
  cases v with
  | disabled => cases e <;> rfl
  | awaitingOpcode =>
    cases e with
    | enable => rfl
    | disable => rfl
    | byteResult b p => simp only [InputEvent.mapTs, eventStep, Option.map_map]; rfl

namespace Machine

variable (s : State)

@[simp] theorem mapTs_st : (s.mapTs g).st = s.st := rfl
@[simp] theorem mapTs_input : (s.mapTs g).input = s.input.map (InputSlot.mapTs g) := rfl

theorem consume_mapTs : (s.mapTs g).consume = s.consume.mapTs g := by
  simp [State.consume, State.mapTs]

theorem assertReset_mapTs : (s.mapTs g).assertReset = s.assertReset.mapTs g := rfl

theorem setSt_mapTs (v : DecoderState) : (s.mapTs g).setSt v = (s.setSt v).mapTs g := rfl

theorem emitOption_mapTs (o : Option OutputFrame) :
    (s.mapTs g).emitOption (o.map (OutputFrame.mapTs g)) = (s.emitOption o).mapTs g := by
  cases o with
  | none => rfl
  | some f => simp [State.emit, State.mapTs, PendingFrame.mapTs]

theorem runEvent_mapTs (e : InputEvent) : (s.mapTs g).runEvent (e.mapTs g) = (s.runEvent e).mapTs g := by
  rw [State.runEvent, mapTs_st, eventStep_mapTs, setSt_mapTs, emitOption_mapTs, State.runEvent]

theorem dueFrame_mapTs (ps : List PendingFrame) :
    dueFrame (ps.map (PendingFrame.mapTs g)) = (dueFrame ps).map (OutputFrame.mapTs g) := by
  match ps with
  | [] => rfl
  | ⟨0, _⟩ :: _ => rfl
  | ⟨_ + 1, _⟩ :: _ => rfl

theorem restPending_mapTs (ps : List PendingFrame) :
    restPending (ps.map (PendingFrame.mapTs g)) = (restPending ps).map (PendingFrame.mapTs g) := by
  have hcountDown : ∀ ps : List PendingFrame, (ps.map (PendingFrame.mapTs g)).map PendingFrame.countDown =
      (ps.map PendingFrame.countDown).map (PendingFrame.mapTs g) := fun ps => by
    rw [List.map_map, List.map_map]
    rfl
  match ps with
  | [] => rfl
  | ⟨0, _⟩ :: ps => exact hcountDown ps
  | ⟨n + 1, f⟩ :: ps => exact hcountDown (⟨n + 1, f⟩ :: ps)

theorem drivePort_mapTs (c : Bool) : (s.mapTs g).drivePort c = (s.drivePort c).mapTs g := by
  cases c with
  | false => simp [State.drivePort, State.mapTs]
  | true =>
    cases h : dueFrame s.pending <;>
      simp [State.drivePort, State.mapTs, dueFrame_mapTs, restPending_mapTs, h]

/-- Settles O43: what the next slot is does not depend on its timestamps, and each operation of the step carries
them through. -/
theorem stepIsBlindToTimestampValues : Obligations.StepIsBlindToTimestampValues := by
  intro g s
  cases hin : s.input with
  | nil =>
    have hin' : (s.mapTs g).input = [] := by rw [mapTs_input, hin]; rfl
    rw [step_of_input_nil hin, step_of_input_nil hin', drivePort_mapTs]
    rfl
  | cons x xs =>
    have hin' : (s.mapTs g).input = x.mapTs g :: xs.map (InputSlot.mapTs g) := by rw [mapTs_input, hin]; rfl
    cases slotView x with
    | reset =>
      rw [step_of_reset_slot hin, step_of_reset_slot hin', consume_mapTs, assertReset_mapTs]
      rfl
    | idle hv =>
      rw [step_of_idle_slot hin hv, step_of_idle_slot hin' hv, consume_mapTs, drivePort_mapTs]
      rfl
    | event e hv hd _ =>
      rw [step_of_event_slot hin hv hd, step_of_event_slot hin' hv (decodeEvent_mapTs g hd), consume_mapTs,
        runEvent_mapTs, drivePort_mapTs]
      rfl
    | reserved hv hk =>
      rw [step_of_reserved_slot hin hv hk, step_of_reserved_slot hin' hv hk]
      rfl

end Machine

end Sys2Proof
end

section
/-! SUPPORT. Proofs of the family 'other', seventh part: reset slots and the reset input (D4, `RESET_STYLE`), the
boundary events run twice (20_memory.md section 3, D3), and a step in the terms of its statement. -/

namespace Sys2Proof

/-! ## The reset input -/

theorem ResetStyle.level_eq_activeLevel_iff (style : ResetStyle) (level : Bool) :
    level = style.activeLevel ↔ (level = true ↔ style.polarity = .activeHigh) := by
  unfold ResetStyle.activeLevel
  cases style.polarity <;> simp

theorem ResetPin.asserted_iff (style : ResetStyle) (pin : ResetPin) :
    pin.asserted style = true ↔
      pin.level = style.activeLevel ∧ (style.timing = .synchronous → pin.atClock = true) := by
  unfold ResetPin.asserted
  cases style.timing <;> simp

/-- A drive of the inputs that stands for the slot, under the given style. -/
def PinDrive.ofSlot (style : ResetStyle) : InputSlot → PinDrive
  | .reset => .resetPin ⟨style.activeLevel, true⟩
  | .port t => .port t

theorem PinDrive.slots_ofSlot (style : ResetStyle) : ∀ x, (PinDrive.ofSlot style x).slots style = [x]
  | .reset => if_pos (asserted_activeLevel style)
  | .port _ => rfl

theorem PinDrive.flatMap_slots_ofSlot (style : ResetStyle) (xs : List InputSlot) :
    (xs.map (PinDrive.ofSlot style)).flatMap (PinDrive.slots style) = xs := by
  simp [List.flatMap_map, PinDrive.slots_ofSlot]

namespace Machine

theorem consume_of_input_cons {s : State} {x : InputSlot} {xs : List InputSlot} (h : s.input = x :: xs) :
    s.consume = { s with input := xs } := by
  simp [State.consume, h]

/-- Settles O3, by the meaning of a reset slot. -/
theorem resetSlotClosesAndDiscardsUnpresented : Obligations.ResetSlotClosesAndDiscardsUnpresented := by
  intro s rest hin
  rw [step_of_reset_slot hin, consume_of_input_cons hin]
  rfl

theorem step_drivePins_of_asserted {style : ResetStyle} {pin : ResetPin} {s : State} (ds : List PinDrive)
    (hin : s.input = []) (h : pin.asserted style = true) :
    step (s.drivePins style (.resetPin pin :: ds)) = .next (s.assertReset.drivePins style ds) := by
  have hreset : (s.drivePins style (.resetPin pin :: ds)).input =
      .reset :: ds.flatMap (PinDrive.slots style) := by
    simp [hin, PinDrive.slots, h]
  rw [step_of_reset_slot hreset, consume_of_input_cons hreset]
  simp [State.drivePins, State.assertReset, hin]

theorem drivePins_of_not_asserted {style : ResetStyle} {pin : ResetPin} (s : State) (ds : List PinDrive)
    (h : pin.asserted style = false) :
    s.drivePins style (.resetPin pin :: ds) = s.drivePins style ds := by
  simp [State.drivePins, PinDrive.slots, h]

/-- Settles O44: an asserted reset input is a reset slot under every style, and one not asserted is no slot. -/
theorem resetStyleCannotBeSeenAtTheEventLevel : Obligations.ResetStyleCannotBeSeenAtTheEventLevel := by
  refine ⟨fun style pin => ?_, fun style xs => ⟨_, PinDrive.flatMap_slots_ofSlot style xs⟩,
    fun style pin s ds hin => ⟨step_drivePins_of_asserted ds hin, drivePins_of_not_asserted s ds⟩⟩
  rw [ResetPin.asserted_iff, ResetStyle.level_eq_activeLevel_iff]

/-! ## The boundary events, and a byte run twice -/

/-- Settles O5: an Enable writes the value that `st` has. -/
theorem enableWhileAwaitingChangesNothing : Obligations.EnableWhileAwaitingChangesNothing := by
  intro s hst
  rw [exec_en_eq, setSt_of_st_eq hst]

/-- Settles O20: a boundary event writes `st` with a value of its own; a byte leaves `st`, so it emits again. -/
theorem boundariesAreIdempotentAndBytesAreNot : Obligations.BoundariesAreIdempotentAndBytesAreNot := by
  constructor
  · rintro i (rfl | rfl) s t hexec
    · rw [exec_en_eq] at hexec ⊢
      cases hexec
      rfl
    · rw [exec_dis_eq] at hexec ⊢
      cases hexec
      rfl
  · intro b p s t f hexec hemit
    obtain ⟨hst, hf, rfl⟩ := byteFrame_of_exec_br hexec hemit
    have hagain : exec (.br b p) (s.emit f) = .next ((s.emit f).emit f) := by
      rw [exec_br_eq_commandEffect, hf]
      exact commandEffect_of_awaitingOpcode (some f) hst
    exact ⟨_, hagain, by simp⟩

/-- Settles O31, by what a step does with each kind of slot. -/
theorem stepRunsTheDecodedEvent : Obligations.StepRunsTheDecodedEvent := by
  refine ⟨fun s t tr rest i hin hv hd hexec => ?_, fun s tr rest hin hv => ?_, fun s => step_of_input_nil⟩
  · exact step_of_event (fetch_of_valid_slot hin hv) hd (consume_of_input_cons hin ▸ hexec)
  · rw [step_of_idle_slot hin hv, consume_of_input_cons hin]

end Machine

end Sys2Proof
end
